-- ==== Sys2Proof/Word.lean ====
section
/-! DEFINITION. The word types of the block (00_scope.md R7, R13, R14): 64-bit data words and the 32-bit command word.
All are unsigned, bit 0 is the least significant bit, and arithmetic on them is modulo two to the width. -/

namespace Sys2Proof

/-- A 64-bit unsigned word (00_scope.md R7): a state word, a raw draw, a seed scalar, ARG, RES0, RES1. -/
abbrev Word := BitVec 64

/-- The 32-bit command word CMD (30_encoding.md R80). -/
abbrev CmdWord := BitVec 32

end Sys2Proof
end

