-- ==== Sys2Proof/Syntax.lean ====
section
/-! DEFINITION. What the host issues: a command as the pair (CMD, ARG), and the seventeen commands with their operands,
one constructor per row of spec/opcode_table.json (30_encoding.md R87). A command that ignores ARG has no operand for
it (R86; entry 11). -/

namespace Sys2Proof

/-- One transaction on the command port: a 32-bit command word and a 64-bit argument (30_encoding.md R80). -/
structure Command where
  word : CmdWord
  arg  : Word
deriving DecidableEq, Repr

/-- The commands of 30_encoding.md R87. -/
inductive Instr where
  /-- NEXT: the raw draw (41_generator_engine.md R137). -/
  | next
  /-- BITS: the top `b` bits of a draw; `b` is IMM8 (42_sampling.md R171). -/
  | bits (b : BitVec 8)
  /-- U64B: an unbiased value below `mx`, which is ARG (42_sampling.md R173). -/
  | u64b (mx : Word)
  /-- U32: the top 32 bits of a draw (42_sampling.md R178). -/
  | u32
  /-- U32P: both 32-bit halves of one draw (42_sampling.md R179). -/
  | u32p
  /-- F52: a double in the open interval (0, 1) (42_sampling.md R180). -/
  | f52
  /-- F53: a double in [0, 1) (42_sampling.md R184). -/
  | f53
  /-- DISCARD: skip `n` steps; `n` is ARG (41_generator_engine.md R138). -/
  | discard (n : Word)
  /-- SEED: seed from one scalar, which is ARG (41_generator_engine.md R148). -/
  | seed (x : Word)
  /-- SEQBEGIN: open a sequence seeding (41_generator_engine.md R145). -/
  | seqbegin
  /-- SEQPUSH: mix in one scalar, which is ARG (41_generator_engine.md R146). -/
  | seqpush (x : Word)
  /-- SEQEND: close a sequence seeding (41_generator_engine.md R147). -/
  | seqend
  /-- MIX: one mixer invocation from accumulator ARG (40_seed_mixer.md R113). -/
  | mix (acc : Word)
  /-- STRD: read state word `i`, which is IDX (43_state_interface.md R210). -/
  | strd (i : Fin 4)
  /-- STWR: write ARG to state word `i`, which is IDX (43_state_interface.md R211). -/
  | stwr (i : Fin 4) (v : Word)
  /-- QMIN: the least raw output value (43_state_interface.md R214). -/
  | qmin
  /-- QMAX: the greatest raw output value (43_state_interface.md R215). -/
  | qmax
deriving DecidableEq, Repr

end Sys2Proof
end

