-- ==== Sys2Proof/Machine/Operands.lean ====
section
/-! DEFINITION. The operand forms of a command: the four fields of the command word (30_encoding.md R81), ARG whole
(R86), and the word built from its fields. -/

namespace Sys2Proof.Machine

/-- OPC, bits 7:0 (30_encoding.md R81). -/
def opcField (w : CmdWord) : BitVec 8 := w.extractLsb' 0 8

/-- IMM8, bits 15:8, unsigned (30_encoding.md R81, R84). -/
def imm8Field (w : CmdWord) : BitVec 8 := w.extractLsb' 8 8

/-- IDX, bits 17:16, an unsigned number 0..3 (30_encoding.md R81, R85). -/
def idxField (w : CmdWord) : Fin 4 := ⟨(w.extractLsb' 16 2).toNat, (w.extractLsb' 16 2).isLt⟩

/-- RSV, bits 31:18 (30_encoding.md R81). -/
def rsvField (w : CmdWord) : BitVec 14 := w.extractLsb' 18 14

/-- The command word `OPC | (IMM8 << 8) | (IDX << 16)`, its reserved bits 0 (30_encoding.md R81). -/
def buildWord (opc : Nat) (imm8 : BitVec 8) (idx : Fin 4) : CmdWord :=
  BitVec.ofNat 32 opc ||| (imm8.zeroExtend 32 <<< 8) ||| (BitVec.ofNat 32 idx.val <<< 16)

/-- A transaction read as one number as entry 12 numbers it: bits 31..0 are CMD, bits 95..32 are ARG. -/
def commandOfNat (v : Nat) : Command :=
  { word := BitVec.ofNat 32 v, arg := BitVec.ofNat 64 (v / 2 ^ 32) }

end Sys2Proof.Machine
end

