-- ==== Sys2Proof/WellFormed.lean ====
section
/-! DEFINITION. Which terms of Instr the encoding admits. Only BITS has an operand with excluded values: IMM8 above 64
faults BITS_RANGE at decode (30_encoding.md R84, R89). IDX and ARG take every value of their width (R85, R86). -/

namespace Sys2Proof

/-- An instruction that decoding can give: for BITS, 0 ≤ b ≤ 64 (30_encoding.md R84). -/
def Instr.wf (i : Instr) : Bool :=
  match i with
  | .next => true
  | .bits b => decide (b.toNat ≤ 64)
  | .u64b _ => true
  | .u32 => true
  | .u32p => true
  | .f52 => true
  | .f53 => true
  | .discard _ => true
  | .seed _ => true
  | .seqbegin => true
  | .seqpush _ => true
  | .seqend => true
  | .mix _ => true
  | .strd _ => true
  | .stwr _ _ => true
  | .qmin => true
  | .qmax => true

end Sys2Proof
end

