-- ==== Sys2Proof/Decode.lean ====
section
/-! DEFINITION. Decoding, total on every command word (30_encoding.md R89), the opcode map as data (R87, and
spec/opcode_table.json), and the encoder written from the same tables (R81, R87, R91). -/

namespace Sys2Proof

open Sys2Proof.Machine (opcField imm8Field idxField rsvField buildWord commandOfNat)

/-- The fault codes that decoding can return (30_encoding.md R89). -/
inductive DecodeFault where
  /-- A reserved bit, an unassigned opcode or a non-zero unused field (60_exceptions.md R232). -/
  | illegal
  /-- BITS with IMM8 in 65..255 (60_exceptions.md R233). -/
  | bitsRange
deriving DecidableEq, Repr

/-- What decoding returns: a command with its operands, or a fault code (30_encoding.md R89). -/
inductive Decoded where
  | instr (i : Instr)
  | fault (f : DecodeFault)
deriving DecidableEq, Repr

/-- The assigned opcodes, as 30_encoding.md R89 lists them. -/
def assignedOpcodes : List Nat :=
  [0x01, 0x02, 0x03, 0x04, 0x05, 0x06, 0x07, 0x08, 0x10, 0x11, 0x12, 0x13, 0x18, 0x20, 0x21, 0x28, 0x29]

/-- The command named by an opcode that uses neither IMM8 nor IDX (30_encoding.md R87). -/
def decodePlain (opc : Nat) (arg : Word) : Decoded :=
  match opc with
  | 0x01 => .instr .next
  | 0x03 => .instr (.u64b arg)
  | 0x04 => .instr .u32
  | 0x05 => .instr .u32p
  | 0x06 => .instr .f52
  | 0x07 => .instr .f53
  | 0x08 => .instr (.discard arg)
  | 0x10 => .instr (.seed arg)
  | 0x11 => .instr .seqbegin
  | 0x12 => .instr (.seqpush arg)
  | 0x13 => .instr .seqend
  | 0x18 => .instr (.mix arg)
  | 0x28 => .instr .qmin
  | 0x29 => .instr .qmax
  | _ => .fault .illegal

/-- The decode function of 30_encoding.md R89, its checks in the rule's order. No check reads machine state. -/
def decode (c : Command) : Decoded :=
  let opc := (opcField c.word).toNat
  let imm := imm8Field c.word
  let idx := idxField c.word
  if rsvField c.word ≠ 0 then .fault .illegal
  else if opc ∉ assignedOpcodes then .fault .illegal
  else if opc = 0x02 then
    if idx ≠ 0 then .fault .illegal
    else if 64 < imm.toNat then .fault .bitsRange
    else .instr (.bits imm)
  else if opc = 0x20 then
    if imm ≠ 0 then .fault .illegal else .instr (.strd idx)
  else if opc = 0x21 then
    if imm ≠ 0 then .fault .illegal else .instr (.stwr idx c.arg)
  else if imm ≠ 0 ∨ idx ≠ 0 then .fault .illegal
  else decodePlain opc c.arg

/-- The instruction that decoding reads from a transaction numbered as entry 12 says; none where it faults. -/
def decodeTableWord (nbits w : Nat) : Option Instr :=
  match decode (commandOfNat (w % 2 ^ nbits)) with
  | .instr i => some i
  | .fault _ => none

/-- The command word and ARG of an instruction, as the assembler emits them: ARG is 0 where it is ignored
(30_encoding.md R87, R91). -/
def encode (i : Instr) : Command :=
  match i with
  | .next => ⟨buildWord 0x01 0 0, 0⟩
  | .bits b => ⟨buildWord 0x02 b 0, 0⟩
  | .u64b mx => ⟨buildWord 0x03 0 0, mx⟩
  | .u32 => ⟨buildWord 0x04 0 0, 0⟩
  | .u32p => ⟨buildWord 0x05 0 0, 0⟩
  | .f52 => ⟨buildWord 0x06 0 0, 0⟩
  | .f53 => ⟨buildWord 0x07 0 0, 0⟩
  | .discard n => ⟨buildWord 0x08 0 0, n⟩
  | .seed x => ⟨buildWord 0x10 0 0, x⟩
  | .seqbegin => ⟨buildWord 0x11 0 0, 0⟩
  | .seqpush x => ⟨buildWord 0x12 0 0, x⟩
  | .seqend => ⟨buildWord 0x13 0 0, 0⟩
  | .mix acc => ⟨buildWord 0x18 0 0, acc⟩
  | .strd i => ⟨buildWord 0x20 0 i, 0⟩
  | .stwr i v => ⟨buildWord 0x21 0 i, v⟩
  | .qmin => ⟨buildWord 0x28 0 0, 0⟩
  | .qmax => ⟨buildWord 0x29 0 0, 0⟩

/-- Whether an instruction reads ARG (30_encoding.md R86). -/
def Instr.usesArg (i : Instr) : Bool :=
  match i with
  | .u64b _ | .discard _ | .seed _ | .seqpush _ | .mix _ | .stwr _ _ => true
  | .next | .bits _ | .u32 | .u32p | .f52 | .f53 | .seqbegin | .seqend | .strd _ | .qmin | .qmax => false

/-- One row of spec/opcode_table.json: the word `w` belongs to the row exactly when `w &&& mask = pattern`. -/
structure OpcodeRow where
  mnemonic : String
  pattern  : CmdWord
  mask     : CmdWord
deriving DecidableEq, Repr

/-- The opcode table (30_encoding.md R87; spec/opcode_table.json, columns match and mask). -/
def opcodeTable : List OpcodeRow :=
  [⟨"NEXT", 0x00000001, 0xFFFFFFFF⟩, ⟨"BITS", 0x00000002, 0xFFFF00FF⟩, ⟨"U64B", 0x00000003, 0xFFFFFFFF⟩,
   ⟨"U32", 0x00000004, 0xFFFFFFFF⟩, ⟨"U32P", 0x00000005, 0xFFFFFFFF⟩, ⟨"F52", 0x00000006, 0xFFFFFFFF⟩,
   ⟨"F53", 0x00000007, 0xFFFFFFFF⟩, ⟨"DISCARD", 0x00000008, 0xFFFFFFFF⟩] ++
  [⟨"SEED", 0x00000010, 0xFFFFFFFF⟩, ⟨"SEQBEGIN", 0x00000011, 0xFFFFFFFF⟩, ⟨"SEQPUSH", 0x00000012, 0xFFFFFFFF⟩,
   ⟨"SEQEND", 0x00000013, 0xFFFFFFFF⟩, ⟨"MIX", 0x00000018, 0xFFFFFFFF⟩, ⟨"STRD", 0x00000020, 0xFFFCFFFF⟩,
   ⟨"STWR", 0x00000021, 0xFFFCFFFF⟩, ⟨"QMIN", 0x00000028, 0xFFFFFFFF⟩, ⟨"QMAX", 0x00000029, 0xFFFFFFFF⟩]

/-- Whether a word belongs to a row. -/
def OpcodeRow.holds (r : OpcodeRow) (w : CmdWord) : Bool := decide (w &&& r.mask = r.pattern)

/-- The mnemonic of an instruction, as spec/opcode_table.json spells it. -/
def Instr.mnemonic (i : Instr) : String :=
  match i with
  | .next => "NEXT"
  | .bits _ => "BITS"
  | .u64b _ => "U64B"
  | .u32 => "U32"
  | .u32p => "U32P"
  | .f52 => "F52"
  | .f53 => "F53"
  | .discard _ => "DISCARD"
  | .seed _ => "SEED"
  | .seqbegin => "SEQBEGIN"
  | .seqpush _ => "SEQPUSH"
  | .seqend => "SEQEND"
  | .mix _ => "MIX"
  | .strd _ => "STRD"
  | .stwr _ _ => "STWR"
  | .qmin => "QMIN"
  | .qmax => "QMAX"

end Sys2Proof
end

