-- ==== Sys2Proof/Config.lean ====
section
/-! DEFINITION. The constants the spec gives by value (00_scope.md R8, R9), the configuration record `Cfg` of the
constants it names without a value (R10), its well-formedness (R11), and the machine's own configuration, whose values
are free: opaque constants with no body, about which nothing can be proved but that the configuration is well-formed. -/

namespace Sys2Proof

namespace Config

/-- SCR_MUL1 (00_scope.md R8). -/
def scrMul1 : Word := 5
/-- SCR_ROT (00_scope.md R8). -/
def scrRot : Nat := 7
/-- SCR_MUL2 (00_scope.md R8). -/
def scrMul2 : Word := 9
/-- SHIFT_T, a left shift and not a rotation (00_scope.md R8; 90_conflicts.md C2). -/
def shiftT : Nat := 17
/-- ROT_S3 (00_scope.md R8). -/
def rotS3 : Nat := 45
/-- BURN_IN (00_scope.md R8; 41_generator_engine.md R144). -/
def burnIn : Nat := 256
/-- DEFAULT_SEED (00_scope.md R8). -/
def defaultSeed : Word := 18914
/-- RAW_MIN (00_scope.md R8). -/
def rawMin : Word := 0
/-- RAW_MAX, two to the 64 less one (00_scope.md R8). -/
def rawMax : Word := 0xFFFFFFFFFFFFFFFF
/-- GAMMA, the golden-ratio increment (00_scope.md R9). -/
def gamma : Word := 0x9E3779B97F4A7C15

end Config

/-- The configuration record of 00_scope.md R10: the constants the source names and gives no value.
It is fixed for the life of the block and is no state (10_state.md R40). -/
structure Cfg where
  mixR1 : Nat
  mixM1 : Word
  mixR2 : Nat
  mixM2 : Word
  mixR3 : Nat
  init0 : Word
  init1 : Word
  init2 : Word
  init3 : Word
  zeroFallback : Word
  accInit : Word
  /-- SEED_LOAD: how a seed scalar (second argument) enters the accumulator (first argument). -/
  seedLoad : Word → Word → Word

/-- 00_scope.md R11: each MIX_R is in 1..63, MIX_M1 and MIX_M2 are odd and different, ZERO_FALLBACK is not 0. -/
def Cfg.wf (c : Cfg) : Bool :=
  decide (1 ≤ c.mixR1 ∧ c.mixR1 ≤ 63) && decide (1 ≤ c.mixR2 ∧ c.mixR2 ≤ 63) &&
  decide (1 ≤ c.mixR3 ∧ c.mixR3 ≤ 63) && decide (c.mixM1.toNat % 2 = 1) &&
  decide (c.mixM2.toNat % 2 = 1) && decide (c.mixM1 ≠ c.mixM2) && decide (c.zeroFallback ≠ 0)

/-- Coordinates of the well-formed configurations: every value of this record gives one, and every well-formed
configuration comes from one (Sys2Proof/Laws/Config.lean proves both). DESIGN CHOICE, safe (entry 1): the coordinates
carry R11's constraints in their types, so that the machine's free configuration needs no assumption beside it. -/
structure CfgCoords where
  r1 : Fin 63
  r2 : Fin 63
  r3 : Fin 63
  /-- MIX_M1 is twice this plus one. -/
  m1Half : BitVec 63
  /-- MIX_M2 is MIX_M1 plus twice (this plus one), so it is odd and different: this runs over 2^63 - 1 values. -/
  m2Gap : Fin 9223372036854775807
  init0 : Word
  init1 : Word
  init2 : Word
  init3 : Word
  /-- ZERO_FALLBACK less one: this runs over 2^64 - 1 values. -/
  zeroFallbackPred : Fin 18446744073709551615
  accInit : Word
  seedLoad : Word → Word → Word
deriving Inhabited

/-- The configuration that the coordinates name. -/
def Cfg.ofCoords (k : CfgCoords) : Cfg where
  mixR1 := k.r1.val + 1
  mixM1 := BitVec.ofNat 64 (2 * k.m1Half.toNat + 1)
  mixR2 := k.r2.val + 1
  mixM2 := BitVec.ofNat 64 (2 * k.m1Half.toNat + 1) + BitVec.ofNat 64 (2 * (k.m2Gap.val + 1))
  mixR3 := k.r3.val + 1
  init0 := k.init0
  init1 := k.init1
  init2 := k.init2
  init3 := k.init3
  zeroFallback := BitVec.ofNat 64 (k.zeroFallbackPred.val + 1)
  accInit := k.accInit
  seedLoad := k.seedLoad

/-- The free values behind the machine's configuration: no body, so nothing can be proved of them (entries 1, 2). -/
opaque Config.coords : CfgCoords

/-- The configuration of the machine: some well-formed configuration, of which no value is known (00_scope.md R10:
"None may be given a value by a model that claims to be this hardware"; 70_reset_and_hazards.md R264). -/
def Config.cfg : Cfg := Cfg.ofCoords Config.coords

end Sys2Proof
end

