-- ==== Sys2Proof/Machine/Bits.lean ====
section
/-! DEFINITION. The arithmetic of 00_scope.md R14 to R17 that is more than one operator: rotation, the 128-bit product
and its halves, zero extension of a field, and the bit length used by the floating-point procedures. -/

namespace Sys2Proof.Machine

/-- `rotl(x, r)` for 0 < r < 64, the 64-bit circular left rotation (00_scope.md R15). -/
def rotl (x : Word) (r : Nat) : Word := (x <<< r) ||| (x >>> (64 - r))

/-- `rotr(x, r) = rotl(x, 64 - r)` (00_scope.md R15). -/
def rotr (x : Word) (r : Nat) : Word := rotl x (64 - r)

/-- `mul128(a, b)`, the exact product as a 128-bit value (00_scope.md R16). -/
def mul128 (a b : Word) : BitVec 128 := a.zeroExtend 128 * b.zeroExtend 128

/-- `hi64(m) = m[127:64]` (00_scope.md R16). -/
def hi64 (m : BitVec 128) : Word := m.extractLsb' 64 64

/-- `lo64(m) = m[63:0]` (00_scope.md R16). -/
def lo64 (m : BitVec 128) : Word := m.extractLsb' 0 64

/-- `x[31:0]`, zero-extended to 64 bits (00_scope.md R13, R17). -/
def low32 (x : Word) : Word := (x.extractLsb' 0 32).zeroExtend 64

/-- `x[63:32]`, zero-extended to 64 bits (00_scope.md R13, R17). -/
def high32 (x : Word) : Word := (x.extractLsb' 32 32).zeroExtend 64

/-- `bitlength(m)`: 0 for 0, else the p with 2^(p-1) ≤ m < 2^p (42_sampling.md R181). -/
def bitLength (m : Nat) : Nat := if m = 0 then 0 else Nat.log2 m + 1

end Sys2Proof.Machine
end

