-- ==== Sys2Proof/Machine/Engine.lean ====
section
/-! DEFINITION. The Generator Engine (41_generator_engine.md R130 to R138): its four state words, the one-step advance,
the advance by n steps, and the inverse of the step (for proofs only: no command computes it, R134). -/

namespace Sys2Proof.Machine

/-- The engine state: an ordered tuple of four 64-bit words (10_state.md R30). -/
structure Engine where
  s0 : Word
  s1 : Word
  s2 : Word
  s3 : Word
deriving DecidableEq, Repr

namespace Engine

/-- The all-zero state (10_state.md R31). -/
def zero : Engine := ⟨0, 0, 0, 0⟩

/-- `S[i]` read (00_scope.md R18; 20_memory.md R61). -/
def get (e : Engine) (i : Fin 4) : Word :=
  match i with
  | 0 => e.s0
  | 1 => e.s1
  | 2 => e.s2
  | 3 => e.s3

/-- `S[i] <- v` (00_scope.md R18; 20_memory.md R61). -/
def set (e : Engine) (i : Fin 4) (v : Word) : Engine :=
  match i with
  | 0 => { e with s0 := v }
  | 1 => { e with s1 := v }
  | 2 => { e with s2 := v }
  | 3 => { e with s3 := v }

/-- The "starstar" scrambler: multiply by 5, rotate by 7, multiply by 9 (41_generator_engine.md R131; 90_conflicts.md
C1). -/
def scramble (s1 : Word) : Word := rotl (s1 * Config.scrMul1) Config.scrRot * Config.scrMul2

/-- `step(s0, s1, s2, s3) = (out, S')`: each line reads what the lines before it wrote (41_generator_engine.md R130,
R132). -/
def step (e : Engine) : Word × Engine :=
  let out := scramble e.s1
  let t := e.s1 <<< Config.shiftT
  let s2 := e.s2 ^^^ e.s0
  let s3 := e.s3 ^^^ e.s1
  let s1 := e.s1 ^^^ s2
  let s0 := e.s0 ^^^ s3
  let s2 := s2 ^^^ t
  let s3 := rotl s3 Config.rotS3
  (out, ⟨s0, s1, s2, s3⟩)

/-- The output of a step from this state (41_generator_engine.md R131). -/
def output (e : Engine) : Word := e.step.1

/-- The state after a step (41_generator_engine.md R130). -/
def advance (e : Engine) : Engine := e.step.2

/-- `repeat n times: (_, S) <- step(S)` (41_generator_engine.md R138). -/
def steps : Nat → Engine → Engine
  | 0, e => e
  | n + 1, e => steps n e.advance

/-- The inverse of the state map (41_generator_engine.md R134). -/
def unstep (n : Engine) : Engine :=
  let u3 := rotl n.s3 19
  let s0 := n.s0 ^^^ u3
  let y := n.s1 ^^^ n.s2
  let s1 := y ^^^ (y <<< 17) ^^^ (y <<< 34) ^^^ (y <<< 51)
  let s2 := n.s1 ^^^ s1 ^^^ s0
  let s3 := u3 ^^^ s1
  ⟨s0, s1, s2, s3⟩

end Engine

end Sys2Proof.Machine
end

