-- ==== Sys2Proof/Machine/Mixer.lean ====
section
/-! DEFINITION. The Seed Mixer (40_seed_mixer.md R110): a pure function from the prior accumulator to the pair of
output and updated accumulator (R111; 90_conflicts.md C7), for any configuration. -/

namespace Sys2Proof.Machine

/-- `x ^ (x >> r)`, the xor-shift of the mixer (40_seed_mixer.md R110). -/
def xorShift (x : Word) (r : Nat) : Word := x ^^^ (x >>> r)

/-- `acc' <- acc + GAMMA`, modulo 2^64 (40_seed_mixer.md R110). The constant stands first, which changes no value: with it
last, Lean's kernel would count GAMMA down by ones whenever it compares states. -/
def nextAcc (acc : Word) : Word := Config.gamma + acc

/-- The two xor-shift-multiply rounds and the final xor-shift, on a copy of the updated accumulator (40_seed_mixer.md
R110). -/
def mixRounds (c : Cfg) (acc' : Word) : Word :=
  let z := acc'
  let z := xorShift z c.mixR1 * c.mixM1
  let z := xorShift z c.mixR2 * c.mixM2
  let z := xorShift z c.mixR3
  z

/-- `mix(acc) = (z, acc')` (40_seed_mixer.md R110). -/
def mix (c : Cfg) (acc : Word) : Word × Word := (mixRounds c (nextAcc acc), nextAcc acc)

end Sys2Proof.Machine
end

