-- ==== Sys2Proof/Machine/Seeding.lean ====
section
/-! DEFINITION. The seeding protocol (41_generator_engine.md R140 to R144) over the engine state and the accumulator,
for any configuration: SeedInit, MixIn, ZeroCheck, BurnIn, and their composition for one scalar and for a sequence. -/

namespace Sys2Proof.Machine

/-- SeedInit: the state words get the four constants, the accumulator its initializer (41_generator_engine.md R141). -/
def seedInit (c : Cfg) : Engine × Word := (⟨c.init0, c.init1, c.init2, c.init3⟩, c.accInit)

/-- One turn of MixIn's loop: `(z, ACC) <- mix(ACC); S[i] <- S[i] + z` (41_generator_engine.md R142). -/
def addMixed (c : Cfg) (p : Engine × Word) (i : Fin 4) : Engine × Word :=
  let q := mix c p.2
  (p.1.set i (p.1.get i + q.1), q.2)

/-- MixIn for one scalar: it enters the accumulator by SEED_LOAD, then the four words are added to in index order
(41_generator_engine.md R142). -/
def mixIn (c : Cfg) (p : Engine × Word) (x : Word) : Engine × Word :=
  [0, 1, 2, 3].foldl (addMixed c) (p.1, c.seedLoad p.2 x)

/-- ZeroCheck: an all-zero state gets ZERO_FALLBACK in S[1] (41_generator_engine.md R143). -/
def zeroCheck (c : Cfg) (e : Engine) : Engine :=
  if e.s0 = 0 ∧ e.s1 = 0 ∧ e.s2 = 0 ∧ e.s3 = 0 then e.set 1 c.zeroFallback else e

/-- BurnIn: 256 steps, outputs discarded (41_generator_engine.md R144). -/
def burnIn (e : Engine) : Engine := e.steps Config.burnIn

/-- The closing steps of seeding: ZeroCheck, then BurnIn (41_generator_engine.md R140). -/
def finishSeeding (c : Cfg) (e : Engine) : Engine := burnIn (zeroCheck c e)

/-- SeedSequence(s_1, ..., s_n): the whole protocol (41_generator_engine.md R140). -/
def seedSequence (c : Cfg) (xs : List Word) : Engine :=
  finishSeeding c (xs.foldl (mixIn c) (seedInit c)).1

/-- Seeding from one scalar, a sequence of length one (41_generator_engine.md R140, R148). -/
@[irreducible] def seedScalar (c : Cfg) (x : Word) : Engine := finishSeeding c (mixIn c (seedInit c) x).1

end Sys2Proof.Machine
end

