-- ==== Sys2Proof/Machine/State.lean ====
section
/-! DEFINITION. The complete block state (10_state.md R45), the host's side of the command port, the reasons a step can
stop, the outcome of a command on the block alone (00_scope.md R21), and the state after reset (R46). -/

namespace Sys2Proof.Machine

/-- The status codes of 60_exceptions.md R231. Codes 5..15 are never produced, so they have no constructor
(10_state.md R36; entry 10). -/
inductive StatusCode where
  /-- 0: the command completed. -/
  | ok
  /-- 1: the command word is not a command (R232). -/
  | illegal
  /-- 2: BITS with b above 64 (R233). -/
  | bitsRange
  /-- 3: U64B with ARG = 0 (R236). -/
  | domain
  /-- 4: a command not allowed in the current seeding mode (R235). -/
  | seqOrder
deriving DecidableEq, Repr

/-- What the host does at the block's boundary (30_encoding.md R80; 70_reset_and_hazards.md R260, R262; 20_memory.md
R66). -/
inductive PortEvent where
  /-- The host issues a command and lets it complete. -/
  | issue (c : Command)
  /-- A reset between commands (R260). -/
  | reset
  /-- The host issues a command and a reset arrives before it completes (R262). -/
  | abandoned (c : Command)
  /-- Another host issues a command on the same block: outside the spec (R66, R272). -/
  | secondHost (c : Command)
deriving DecidableEq, Repr

/-- Why the machine stops in a step. -/
inductive Fault where
  /-- Raised by U64B: no draw of its rejection loop is ever accepted, so the command never completes (42_sampling.md
  R177; 70_reset_and_hazards.md R270). Safe: it is the outcome `diverges` of 00_scope.md R21 and no value is given. -/
  | u64bDiverges
  /-- Raised by SEQPUSH where SEEDING is 1 and ACC is invalid: the source's undefined mixer call, in a state that
  10_state.md R45 rules out (R35; entry 7). Safe: no value is given. -/
  | absentAccumulator
deriving DecidableEq, Repr

/-- Why the model gives a run no meaning. -/
inductive Refusal where
  /-- An instruction whose meaning is not written yet. Safe. -/
  | notModelled (mnemonic : String)
  /-- Raised by powerOn for a configuration that is not well-formed (00_scope.md R11; 70_reset_and_hazards.md R264).
  Safe: nothing is proved of such a block. -/
  | illFormedConfig
  /-- Raised by the port for a second host's command (20_memory.md R66; 70_reset_and_hazards.md R272). Safe: nothing is
  proved of such a run. -/
  | secondHost
deriving DecidableEq, Repr

/-- The complete block state (10_state.md R45). -/
structure BlockState where
  /-- S0..S3 (R30). -/
  engine  : Engine
  /-- ACC, the seed accumulator: a value or invalid (R33). -/
  acc     : Option Word
  /-- STATUS.CODE (R36). -/
  code    : StatusCode
  /-- STATUS.SEEDING (R36). -/
  seeding : Bool
  /-- STATUS.STICKY (R36). -/
  sticky  : Bool
  /-- RES0 (R37). -/
  res0    : Word
  /-- RES1 (R37). -/
  res1    : Word
deriving DecidableEq, Repr

/-- The block state, and beside it the host's coming events (entry 4). -/
structure State extends BlockState where
  /-- The model's own field: what the host does next at the port, oldest first (R41; entry 4). -/
  port    : List PortEvent
deriving DecidableEq, Repr

/-- The outcome of one step or of one command. -/
abbrev Result := Host.Outcome State Fault Refusal

/-- The outcome of a command on the block alone (00_scope.md R21). The last two are no outcomes of the rule: entries 3, 7
and 8 say when they stand. -/
inductive BlockOutcome where
  /-- `done(BlockState')`. -/
  | done (b : BlockState)
  /-- `diverges`: the command never completes (42_sampling.md R177). -/
  | diverges
  /-- A mixer call on an invalid ACC, in a state that 10_state.md R45 rules out (R35; entry 7). -/
  | undefinedMixerCall
  /-- The model gives the run no meaning (00_scope.md R11; 20_memory.md R66; entries 3, 8). -/
  | refused (r : Refusal)
deriving DecidableEq, Repr

/-- The block state after reset of a block with configuration `c` (10_state.md R46; 70_reset_and_hazards.md R260). -/
def BlockState.resetWith (c : Cfg) : BlockState where
  engine := seedScalar c Config.defaultSeed
  acc := none
  code := .ok
  seeding := false
  sticky := false
  res0 := 0
  res1 := 0

/-- The state after reset of a block with configuration `c`. The host has issued nothing. -/
def State.resetWith (c : Cfg) : State := { toBlockState := BlockState.resetWith c, port := [] }

/-- The machine right after reset (10_state.md R46). -/
def State.reset : State := State.resetWith Config.cfg

end Sys2Proof.Machine
end

