-- ==== Sys2Proof/Machine/Flags.lean ====
section
/-! DEFINITION. The STATUS register (10_state.md R36): its codes as numbers (60_exceptions.md R231), the 32-bit word
the host reads, and the observation of a block (00_scope.md R21). The block has no other flag (10_state.md R42). -/

namespace Sys2Proof.Machine

/-- The four bits of STATUS.CODE (60_exceptions.md R231). -/
def StatusCode.bits (c : StatusCode) : BitVec 4 :=
  match c with
  | .ok => 0
  | .illegal => 1
  | .bitsRange => 2
  | .domain => 3
  | .seqOrder => 4

/-- STATUS as the host reads it: CODE in 3:0, SEEDING in 4, STICKY in 5, zeros above (10_state.md R36). -/
def BlockState.status (s : BlockState) : BitVec 32 :=
  s.code.bits.zeroExtend 32 ||| ((BitVec.ofBool s.seeding).zeroExtend 32 <<< 4) |||
    ((BitVec.ofBool s.sticky).zeroExtend 32 <<< 5)

/-- What the host observes after a command: RES0, RES1 and STATUS (00_scope.md R21). Reading them changes nothing
(20_memory.md R65). -/
def BlockState.observe (s : BlockState) : Word × Word × BitVec 32 := (s.res0, s.res1, s.status)

/-- Equality of two engines is equality of their state tuples; nothing else takes part (41_generator_engine.md R152). -/
def State.sameEngine (s t : State) : Bool := decide (s.engine = t.engine)

end Sys2Proof.Machine
end

