-- ==== Sys2Proof/Machine/Transforms.lean ====
section
/-! DEFINITION. The Sampling Layer's transforms as pure functions of a draw (42_sampling.md R170): truncation, Lemire's
bounded reduction with its uncapped rejection loop, and the two binary64 procedures. -/

namespace Sys2Proof.Machine

/-- `bitsfn(x, b)`: the top b bits, 0 for b = 0 (42_sampling.md R171; 90_conflicts.md C4). -/
def bitsFn (x : Word) (b : Nat) : Word := if b = 0 then 0 else x >>> (64 - b)

/-- The rejection threshold `t = (2^64 - mx) mod mx`, computed in 64 bits as `(0 - mx) mod mx` (42_sampling.md R174). -/
def threshold (mx : Word) : Word := (0 - mx) % mx

/-- A bound on the draws of one U64B that excludes nothing: the engine has 2^256 states, so the outputs of that many
steps are all the outputs there will ever be (42_sampling.md R177; entry 6). -/
def drawBound : Nat := 2 ^ 256

/-- The loop `while low < t: x <- draw(); m <- mul128(x, mx); low <- lo64(m)` from the product `m`, with the first
accepted high half and the engine state it leaves (42_sampling.md R173). None: no draw is ever accepted, so the command
never completes (R177). A rejected draw from a state that steps to itself will be drawn forever, so the loop ends there
at once; entry 6 says why neither that nor the bound `n` changes any outcome. -/
def rejectLoop (mx t : Word) : Nat → BitVec 128 → Engine → Option (Word × Engine)
  | 0, m, e => if lo64 m < t then none else some (hi64 m, e)
  | n + 1, m, e =>
    if lo64 m < t then
      let m' := mul128 e.output mx
      if lo64 m' < t ∧ e.advance = e then none else rejectLoop mx t n m' e.advance
    else some (hi64 m, e)

/-- U64B's draws for a bound `mx` that is not 0: the value and the engine state after it, or none where the rejection
loop never ends (42_sampling.md R173, R175). -/
@[irreducible] def boundedDraw (mx : Word) (e : Engine) : Option (Word × Engine) :=
  let m := mul128 e.output mx
  if lo64 m < mx then rejectLoop mx (threshold mx) drawBound m e.advance else some (hi64 m, e.advance)

/-- The binary64 word of m·2^-53 for 1 ≤ m < 2^53: exponent from the bit length, fraction without the leading one
(42_sampling.md R181, R185; 00_scope.md R17). -/
def scaledBits (m : Nat) : Word :=
  let p := bitLength m
  let ex := p + 969
  (BitVec.ofNat 64 ex <<< 52) ||| (BitVec.ofNat 64 (m <<< (53 - p)) &&& 0x000FFFFFFFFFFFFF)

/-- `f52bits(x)` (42_sampling.md R181). -/
def f52bits (x : Word) : Word := scaledBits (2 * (x >>> 12).toNat + 1)

/-- `f53bits(x)` (42_sampling.md R185). -/
def f53bits (x : Word) : Word :=
  let k := (x >>> 11).toNat
  if k = 0 then 0 else scaledBits k

/-- The rational value of a finite binary64 word: sign bit 63, biased exponent in bits 62:52 (bias 1023), fraction in
bits 51:0 (00_scope.md R17, 42_sampling.md R188). It serves statements about F52 and F53; no command computes it. -/
def binary64Value (w : Word) : ℚ :=
  let sign : ℚ := if w.getLsbD 63 then -1 else 1
  let ex := (w.extractLsb' 52 11).toNat
  let fr := (w.extractLsb' 0 52).toNat
  if ex = 0 then sign * (fr : ℚ) / 2 ^ 1074
  else sign * ((2 ^ 52 + fr : ℕ) : ℚ) * 2 ^ ex / 2 ^ 1075

end Sys2Proof.Machine
end

