-- ==== Sys2Proof/Machine/Ops.lean ====
section
/-! DEFINITION. The shared operations over the block state: writing each register, a draw, ending a command in success,
ending it in a fault, the two mode checks, and bringing a block up from a configuration. -/

namespace Sys2Proof.Machine

namespace State

/-- `S <- e`. -/
def withEngine (s : State) (e : Engine) : State := { s with engine := e }

/-- `ACC <- a` (10_state.md R33). -/
def withAcc (s : State) (a : Option Word) : State := { s with acc := a }

/-- `STATUS.SEEDING <- b` (10_state.md R36). -/
def withSeeding (s : State) (b : Bool) : State := { s with seeding := b }

/-- `RES0 <- v` (10_state.md R37). -/
def withRes0 (s : State) (v : Word) : State := { s with res0 := v }

/-- `RES1 <- v` (10_state.md R37). -/
def withRes1 (s : State) (v : Word) : State := { s with res1 := v }

/-- `draw()`: one step of the block's engine and its output. It cannot fail (41_generator_engine.md R136). -/
def draw (s : State) : Word × State := (s.engine.output, s.withEngine s.engine.advance)

/-- `Fault(c)`: CODE gets the code, STICKY is set, and nothing else changes. It saves nothing and sends control
nowhere, and there is no return from it (60_exceptions.md R237, R241, R242). -/
def takeFault (s : State) (c : StatusCode) : State := { s with code := c, sticky := true }

/-- The effect of success, after the command's rule has run: CODE gets OK, STICKY stays (60_exceptions.md R238). -/
def complete (s : State) : State := { s with code := .ok }

end State

/-- A command ends in success (60_exceptions.md R238). -/
def done (s : State) : Result := .next s.complete

/-- A command ends in a fault of the block, which is a next state (60_exceptions.md R237). -/
def faulted (s : State) (c : StatusCode) : Result := .next (s.takeFault c)

/-- The mode check of the commands that draw, skip or import: SEQ_ORDER while SEEDING = 1 (60_exceptions.md R234, R235
(b)). -/
def outsideSeeding (s : State) (run : Result) : Result := if s.seeding then faulted s .seqOrder else run

/-- The mode check of SEQPUSH and SEQEND: SEQ_ORDER while SEEDING = 0 (60_exceptions.md R234, R235 (a)). -/
def insideSeeding (s : State) (run : Result) : Result := if s.seeding then run else faulted s .seqOrder

/-- A sampling command that writes RES0 from one draw: `x <- draw(); RES0 <- f(x)` (42_sampling.md R170). -/
def sample (f : Word → Word) (s : State) : Result :=
  outsideSeeding s (let p := s.draw; done (p.2.withRes0 (f p.1)))

/-- The status code of a decode fault (60_exceptions.md R231). -/
def faultCode (f : DecodeFault) : StatusCode :=
  match f with
  | .illegal => .illegal
  | .bitsRange => .bitsRange

/-- Bringing up a block with a given configuration: the model refuses one that is not well-formed, and a well-formed
one starts in the reset state (00_scope.md R11; 70_reset_and_hazards.md R260, R264). From there it steps by `stepWith c`
(Machine/Block.lean). -/
def powerOn (c : Cfg) : Result := if c.wf then .next (State.resetWith c) else .refused .illFormedConfig

end Sys2Proof.Machine
end

