-- ==== Sys2Proof/Machine/Draws.lean ====
section
/-! DEFINITION. The engine family: NEXT and DISCARD (41_generator_engine.md R137, R138). -/

namespace Sys2Proof.Machine

/-- NEXT: `RES0 <- draw()` (41_generator_engine.md R137). -/
def execNext (s : State) : Result := sample id s

/-- DISCARD: `repeat n times: (_, S) <- step(S)`; neither result register is written (41_generator_engine.md R138). -/
def execDiscard (n : Word) (s : State) : Result :=
  outsideSeeding s (done (s.withEngine (s.engine.steps n.toNat)))

end Sys2Proof.Machine
end

