-- ==== Sys2Proof/Machine/Sampling.lean ====
section
/-! DEFINITION. The sampling family: BITS, U64B, U32, U32P, F52 and F53 (42_sampling.md). -/

namespace Sys2Proof.Machine

/-- BITS: `RES0 <- bitsfn(draw(), b)` (42_sampling.md R171). For b above 64, which decoding never gives, the fault that
decoding names (60_exceptions.md R233; entry 13). -/
def execBits (b : BitVec 8) (s : State) : Result :=
  if 64 < b.toNat then faulted s .bitsRange else sample (fun x => bitsFn x b.toNat) s

/-- U64B: DOMAIN for a zero bound, after the mode check (60_exceptions.md R234, R236); else Lemire's method, which
leaves RES0 below `mx`, or never completes (42_sampling.md R173, R177). -/
def execU64b (mx : Word) (s : State) : Result :=
  outsideSeeding s <|
    if mx = 0 then faulted s .domain
    else match boundedDraw mx s.engine with
      | some (r, e) => done ((s.withEngine e).withRes0 r)
      | none => .fault .u64bDiverges

/-- U32: `RES0 <- zext_64(x[63:32])` (42_sampling.md R178). -/
def execU32 (s : State) : Result := sample high32 s

/-- U32P: `RES0 <- zext_64(x[31:0]); RES1 <- zext_64(x[63:32])` of one draw (42_sampling.md R179). -/
def execU32p (s : State) : Result :=
  outsideSeeding s (let p := s.draw; done ((p.2.withRes0 (low32 p.1)).withRes1 (high32 p.1)))

/-- F52: the binary64 word of (2k + 1)·2^-53, k the upper 52 bits of a draw (42_sampling.md R180, R181). -/
def execF52 (s : State) : Result := sample f52bits s

/-- F53: the binary64 word of k·2^-53, k the upper 53 bits of a draw (42_sampling.md R184, R185). -/
def execF53 (s : State) : Result := sample f53bits s

end Sys2Proof.Machine
end

