-- ==== Sys2Proof/Machine/SeedCommands.lean ====
section
/-! DEFINITION. The seeding family, SEED, SEQBEGIN, SEQPUSH and SEQEND (41_generator_engine.md R145 to R148), and MIX
(40_seed_mixer.md R113): each over any configuration, then with the machine's. -/

namespace Sys2Proof.Machine

/-- SEED: the whole protocol for one scalar; ACC ends invalid and SEEDING 0, whatever they were
(41_generator_engine.md R148). -/
def seedWith (c : Cfg) (x : Word) (s : State) : Result :=
  done (((s.withEngine (seedScalar c x)).withAcc none).withSeeding false)

/-- SEQBEGIN: SeedInit, then SEEDING <- 1, in either mode (41_generator_engine.md R145). -/
def seqbeginWith (c : Cfg) (s : State) : Result :=
  let p := seedInit c
  done (((s.withEngine p.1).withAcc (some p.2)).withSeeding true)

/-- SEQPUSH: MixIn(ARG) on the state words and ACC (41_generator_engine.md R146). An invalid ACC while SEEDING = 1,
which 10_state.md R45 rules out, stops the machine (R35; entry 7). -/
def seqpushWith (c : Cfg) (x : Word) (s : State) : Result :=
  insideSeeding s <|
    match s.acc with
    | some a =>
      let p := mixIn c (s.engine, a) x
      done ((s.withEngine p.1).withAcc (some p.2))
    | none => .fault .absentAccumulator

/-- SEQEND: ZeroCheck, BurnIn, ACC invalid, SEEDING <- 0 (41_generator_engine.md R147). -/
def seqendWith (c : Cfg) (s : State) : Result :=
  insideSeeding s (done (((s.withEngine (finishSeeding c s.engine)).withAcc none).withSeeding false))

/-- MIX: `(z, a) <- mix(ARG); RES0 <- z; RES1 <- a`, in either mode, without touching S or ACC (40_seed_mixer.md
R113). -/
def mixWith (c : Cfg) (acc : Word) (s : State) : Result :=
  let p := mix c acc
  done ((s.withRes0 p.1).withRes1 p.2)

/-- SEED (41_generator_engine.md R148). -/
def execSeed (x : Word) (s : State) : Result := seedWith Config.cfg x s

/-- SEQBEGIN (41_generator_engine.md R145). -/
def execSeqbegin (s : State) : Result := seqbeginWith Config.cfg s

/-- SEQPUSH (41_generator_engine.md R146). -/
def execSeqpush (x : Word) (s : State) : Result := seqpushWith Config.cfg x s

/-- SEQEND (41_generator_engine.md R147). -/
def execSeqend (s : State) : Result := seqendWith Config.cfg s

/-- MIX (40_seed_mixer.md R113). -/
def execMix (acc : Word) (s : State) : Result := mixWith Config.cfg acc s

end Sys2Proof.Machine
end

