-- ==== Sys2Proof/Machine/StateInterface.lean ====
section
/-! DEFINITION. State export and import and the range queries: STRD, STWR, QMIN and QMAX (43_state_interface.md). -/

namespace Sys2Proof.Machine

/-- STRD: `RES0 <- S[i]`, in either mode, without a draw (43_state_interface.md R210). -/
def execStrd (i : Fin 4) (s : State) : Result := done (s.withRes0 (s.engine.get i))

/-- STWR: `S[i] <- ARG`, with no check of the value (43_state_interface.md R211). -/
def execStwr (i : Fin 4) (v : Word) (s : State) : Result :=
  outsideSeeding s (done (s.withEngine (s.engine.set i v)))

/-- QMIN: `RES0 <- 0` (43_state_interface.md R214). -/
def execQmin (s : State) : Result := done (s.withRes0 Config.rawMin)

/-- QMAX: `RES0 <- 2^64 - 1` (43_state_interface.md R215). -/
def execQmax (s : State) : Result := done (s.withRes0 Config.rawMax)

end Sys2Proof.Machine
end

