-- ==== Sys2Proof/Machine/Dispatch.lean ====
section
/-! DEFINITION. The meaning of each command, one arm per constructor of Instr (30_encoding.md R87). -/

namespace Sys2Proof.Machine

/-- What a decoded command does to the block state (60_exceptions.md R234). -/
def exec (i : Instr) (s : State) : Host.Outcome State Fault Refusal :=
  match i with
  -- 41_generator_engine.md and 42_sampling.md: draws
  | .next => Sys2Proof.Machine.execNext s
  | .bits b => Sys2Proof.Machine.execBits b s
  | .u64b mx => Sys2Proof.Machine.execU64b mx s
  | .u32 => Sys2Proof.Machine.execU32 s
  | .u32p => Sys2Proof.Machine.execU32p s
  | .f52 => Sys2Proof.Machine.execF52 s
  | .f53 => Sys2Proof.Machine.execF53 s
  | .discard n => Sys2Proof.Machine.execDiscard n s
  -- 41_generator_engine.md: seeding
  | .seed x => Sys2Proof.Machine.execSeed x s
  | .seqbegin => Sys2Proof.Machine.execSeqbegin s
  | .seqpush x => Sys2Proof.Machine.execSeqpush x s
  | .seqend => Sys2Proof.Machine.execSeqend s
  -- 40_seed_mixer.md
  | .mix acc => Sys2Proof.Machine.execMix acc s
  -- 43_state_interface.md
  | .strd k => Sys2Proof.Machine.execStrd k s
  | .stwr k v => Sys2Proof.Machine.execStwr k v s
  | .qmin => Sys2Proof.Machine.execQmin s
  | .qmax => Sys2Proof.Machine.execQmax s

end Sys2Proof.Machine
end

