-- ==== Sys2Proof/Machine/Port.lean ====
section
/-! DEFINITION. The command port (30_encoding.md R80; 20_memory.md R66): what one command word does and what one event of
the host does, each for any meaning of the commands, then with the machine's. -/

namespace Sys2Proof.Machine

/-- One command, decoded first: a decode fault is a fault of the block, else the command runs by `run` (60_exceptions.md
R234). -/
def runCommandBy (run : Instr → State → Result) (c : Command) (s : State) : Result :=
  match decode c with
  | .fault f => faulted s (faultCode f)
  | .instr i => run i s

/-- What the block does with the host's next event, where commands run by `run` and `rst` is the reset state. With
nothing issued it is idle and holds all its state (60_exceptions.md R248; entry 5). A reset, and a command abandoned by
a reset, leave the reset state (70_reset_and_hazards.md R260, R262; entry 9). A second host is refused (20_memory.md R66;
entry 8). -/
def acceptEventBy (run : Instr → State → Result) (rst : State) (s : State) : Result :=
  match s.port with
  | [] => .next s
  | .issue c :: rest => runCommandBy run c { s with port := rest }
  | .reset :: rest => .next { rst with port := rest }
  | .abandoned _ :: rest => .next { rst with port := rest }
  | .secondHost _ :: _ => .refused .secondHost

/-- One command of the machine (60_exceptions.md R234). -/
def runCommand (c : Command) (s : State) : Result := runCommandBy exec c s

/-- One event of the machine (20_memory.md R66). -/
def acceptEvent (s : State) : Result := acceptEventBy exec State.reset s

/-- The state in which the host issues `c` next (30_encoding.md R80). -/
def State.issueNext (s : State) (c : Command) : State := { s with port := .issue c :: s.port }

/-- The host issues a list of commands, in order (10_state.md R41). -/
def State.issueAll (s : State) (cs : List Command) : State := { s with port := cs.map .issue ++ s.port }

end Sys2Proof.Machine
end

