-- ==== Sys2Proof/Machine/Step.lean ====
section
/-! DEFINITION. One step of the machine, and the state in which a given transaction is the next thing it runs. -/

namespace Sys2Proof.Machine

/-- One step: the block takes the host's next event (20_memory.md R66). -/
def step (s : State) : Host.Outcome State Fault Refusal := acceptEvent s

/-- `s` with the transaction numbered `w` (its low `nbits` bits, zeros above; entry 12) as what the host issues next.
The block fetches nothing from a memory (10_state.md R41): the host issuing it is all a command needs (entry 4). -/
def State.withFetchWord (s : State) (nbits w : Nat) : State := s.issueNext (commandOfNat (w % 2 ^ nbits))

end Sys2Proof.Machine
end

