-- ==== Sys2Proof/Machine/Assembler.lean ====
section
/-! DEFINITION. The assembler beside the block (30_encoding.md R91, R92): its lines, the commands each line stands for,
which lines it must reject, and the reading of a line of text as a list of characters. Entry 16 names what the rules
leave open about spelling. -/

namespace Sys2Proof.Machine

/-- One line: a command with its operands, or a pseudo-instruction (30_encoding.md R91, R92). -/
inductive AsmLine where
  /-- A command of R91. -/
  | core (i : Instr)
  /-- `u64`: NEXT under its alias. -/
  | u64
  /-- `bits` with no operand: NEXT under its alias. -/
  | bitsRaw
  /-- `u64 max`: U64B under its alias. -/
  | u64Max (mx : Word)
  /-- `seeddef`: SEED with the default seed. -/
  | seeddef
  /-- `seedseq s1, ..., sn`: a whole sequence seeding. -/
  | seedseq (xs : List Word)
  /-- `ldstate a, b, c, d`: state import. -/
  | ldstate (a b c d : Word)
  /-- `ststate`: state export. -/
  | ststate
  /-- `.cmd W, A`: the raw pair, not checked. -/
  | raw (w : CmdWord) (a : Word)
deriving DecidableEq, Repr

/-- Commands the assembler must not emit: `bits b` with b above 64 and `u64b 0` (30_encoding.md R91). -/
def asmAccepts (i : Instr) : Bool :=
  match i with
  | .bits b => decide (b.toNat ≤ 64)
  | .u64b mx => decide (mx ≠ 0)
  | .next | .u32 | .u32p | .f52 | .f53 | .discard _ | .seed _ | .seqbegin | .seqpush _ | .seqend | .mix _ | .strd _
  | .stwr _ _ | .qmin | .qmax => true

/-- The commands a line expands to (30_encoding.md R92); the raw form is no line of commands. -/
def AsmLine.expand (l : AsmLine) : List Instr :=
  match l with
  | .core i => [i]
  | .u64 => [.next]
  | .bitsRaw => [.next]
  | .u64Max mx => [.u64b mx]
  | .seeddef => [.seed Config.defaultSeed]
  | .seedseq xs => [.seqbegin] ++ xs.map .seqpush ++ [.seqend]
  | .ldstate a b c d => [.stwr 0 a, .stwr 1 b, .stwr 2 c, .stwr 3 d]
  | .ststate => [.strd 0, .strd 1, .strd 2, .strd 3]
  | .raw _ _ => []

/-- The (CMD, ARG) pairs the assembler emits for a line, or none where it rejects it (30_encoding.md R91, R92). -/
def AsmLine.assemble (l : AsmLine) : Option (List Command) :=
  match l with
  | .raw w a => some [⟨w, a⟩]
  | l => if l.expand.all asmAccepts then some (l.expand.map encode) else none

/-- The value of a digit character in base 10 or 16. -/
def digitValue (base : Nat) (ch : Char) : Option Nat :=
  let n := ch.toNat
  if 48 ≤ n ∧ n ≤ 57 then some (n - 48)
  else if base = 16 ∧ 97 ≤ n ∧ n ≤ 102 then some (n - 87)
  else if base = 16 ∧ 65 ≤ n ∧ n ≤ 70 then some (n - 55)
  else none

/-- A run of digits after the value `acc` of those before it. -/
def digitsValue (base : Nat) (acc : Nat) : List Char → Option Nat
  | [] => some acc
  | ch :: rest =>
    match digitValue base ch with
    | some d => digitsValue base (acc * base + d) rest
    | none => none

/-- A number: decimal, or hexadecimal with `0x` (30_encoding.md R91). -/
def readNumber (cs : List Char) : Option Nat :=
  match cs with
  | '0' :: 'x' :: d :: ds => digitsValue 16 0 (d :: ds)
  | d :: ds => digitsValue 10 0 (d :: ds)
  | [] => none

/-- Blanks and tabs separate (entry 16). -/
def isBlank (ch : Char) : Bool := ch == ' ' || ch == '\t'

/-- A field without the blanks around it. -/
def trimBlanks (cs : List Char) : List Char := ((cs.dropWhile isBlank).reverse.dropWhile isBlank).reverse

/-- The fields between commas (30_encoding.md R91). -/
def splitCommas : List Char → List (List Char)
  | [] => [[]]
  | ch :: rest =>
    match splitCommas rest with
    | [] => [[ch]]
    | f :: fs => if ch = ',' then [] :: f :: fs else (ch :: f) :: fs

/-- The numbers of an operand list; no operands where nothing is written. -/
def readOperands (cs : List Char) : Option (List Nat) :=
  match trimBlanks cs with
  | [] => some []
  | t => (splitCommas t).mapM (fun f => readNumber (trimBlanks f))

/-- A number as a 64-bit operand; larger ones are rejected (entry 16). -/
def asWord (n : Nat) : Option Word := if n < 2 ^ 64 then some (BitVec.ofNat 64 n) else none

/-- A form without operands. -/
def formNone (l : AsmLine) (ns : List Nat) : Option AsmLine :=
  match ns with
  | [] => some l
  | _ => none

/-- A form with one 64-bit operand. -/
def formWord (f : Word → AsmLine) (ns : List Nat) : Option AsmLine :=
  match ns with
  | [n] => (asWord n).map f
  | _ => none

/-- `bits` with no operand or with 0 ≤ b ≤ 64. -/
def formBits (ns : List Nat) : Option AsmLine :=
  match ns with
  | [] => some .bitsRaw
  | [b] => if b ≤ 64 then some (.core (.bits (BitVec.ofNat 8 b))) else none
  | _ => none

/-- `u64` with no operand or with a bound. -/
def formU64 (ns : List Nat) : Option AsmLine :=
  match ns with
  | [] => some .u64
  | [n] => (asWord n).map .u64Max
  | _ => none

/-- `strd i` with 0 ≤ i ≤ 3. -/
def formStrd (ns : List Nat) : Option AsmLine :=
  match ns with
  | [i] => if h : i < 4 then some (.core (.strd ⟨i, h⟩)) else none
  | _ => none

/-- `stwr i, v` with 0 ≤ i ≤ 3. -/
def formStwr (ns : List Nat) : Option AsmLine :=
  match ns with
  | [i, v] => if h : i < 4 then (asWord v).map (fun x => .core (.stwr ⟨i, h⟩ x)) else none
  | _ => none

/-- `ldstate a, b, c, d`. -/
def formLdstate (ns : List Nat) : Option AsmLine :=
  match ns.mapM asWord with
  | some [a, b, c, d] => some (.ldstate a b c d)
  | _ => none

/-- `.cmd W, A` with a 32-bit W. -/
def formRaw (ns : List Nat) : Option AsmLine :=
  match ns with
  | [w, a] => if w < 2 ^ 32 then (asWord a).map (.raw (BitVec.ofNat 32 w)) else none
  | _ => none

/-- The mnemonics and their forms (30_encoding.md R91, R92), lower case. -/
def asmForms : List (List Char × (List Nat → Option AsmLine)) :=
  [(['n', 'e', 'x', 't'], formNone (.core .next)),
   (['b', 'i', 't', 's'], formBits),
   (['u', '6', '4', 'b'], formWord (fun x => .core (.u64b x))),
   (['u', '3', '2'], formNone (.core .u32)),
   (['u', '3', '2', 'p'], formNone (.core .u32p)),
   (['f', '5', '2'], formNone (.core .f52)),
   (['f', '5', '3'], formNone (.core .f53)),
   (['d', 'i', 's', 'c', 'a', 'r', 'd'], formWord (fun x => .core (.discard x)))] ++
  [(['s', 'e', 'e', 'd'], formWord (fun x => .core (.seed x))),
   (['s', 'e', 'q', 'b', 'e', 'g', 'i', 'n'], formNone (.core .seqbegin)),
   (['s', 'e', 'q', 'p', 'u', 's', 'h'], formWord (fun x => .core (.seqpush x))),
   (['s', 'e', 'q', 'e', 'n', 'd'], formNone (.core .seqend)),
   (['m', 'i', 'x'], formWord (fun x => .core (.mix x))),
   (['s', 't', 'r', 'd'], formStrd),
   (['s', 't', 'w', 'r'], formStwr),
   (['q', 'm', 'i', 'n'], formNone (.core .qmin)),
   (['q', 'm', 'a', 'x'], formNone (.core .qmax))] ++
  [(['u', '6', '4'], formU64),
   (['s', 'e', 'e', 'd', 'd', 'e', 'f'], formNone .seeddef),
   (['s', 'e', 'e', 'd', 's', 'e', 'q'], fun ns => (ns.mapM asWord).map .seedseq),
   (['l', 'd', 's', 't', 'a', 't', 'e'], formLdstate),
   (['s', 't', 's', 't', 'a', 't', 'e'], formNone .ststate),
   (['.', 'c', 'm', 'd'], formRaw)]

/-- One line of text, without its comment: nothing, or a line of the assembler, or rejected (30_encoding.md R91). -/
def readLine (cs : List Char) : Option (Option AsmLine) :=
  match trimBlanks (cs.takeWhile (· ≠ ';')) with
  | [] => some none
  | t =>
    let name := t.takeWhile (fun ch => !isBlank ch)
    match asmForms.find? (fun f => f.1 == name), readOperands (t.dropWhile (fun ch => !isBlank ch)) with
    | some f, some ns => (f.2 ns).map some
    | _, _ => none

/-- The commands of one line of text; a line that only comments gives none (30_encoding.md R91). -/
def assembleLine (cs : List Char) : Option (List Command) :=
  match readLine cs with
  | some none => some []
  | some (some l) => l.assemble
  | none => none

/-- The commands of a program, line after line; one rejected line rejects it. -/
def assembleProgram (ls : List (List Char)) : Option (List Command) :=
  (ls.mapM assembleLine).map List.flatten

end Sys2Proof.Machine
end

