-- ==== Sys2Proof/Machine/Block.lean ====
section
/-! DEFINITION. The block as 00_scope.md R21 shapes a model of it: a function of configuration, block state and command,
the machine of any one configuration, and the observation of a run. The machine of Step.lean is the one of the free
configuration (Sys2Proof/Laws/Block.lean proves it). -/

namespace Sys2Proof.Machine

/-- What a decoded command does to a block of configuration `c` (00_scope.md R21; 10_state.md R40). -/
def execWith (c : Cfg) (i : Instr) (s : State) : Result :=
  match i with
  | .next => execNext s
  | .bits b => execBits b s
  | .u64b mx => execU64b mx s
  | .u32 => execU32 s
  | .u32p => execU32p s
  | .f52 => execF52 s
  | .f53 => execF53 s
  | .discard n => execDiscard n s
  | .seed x => seedWith c x s
  | .seqbegin => seqbeginWith c s
  | .seqpush x => seqpushWith c x s
  | .seqend => seqendWith c s
  | .mix acc => mixWith c acc s
  | .strd k => execStrd k s
  | .stwr k v => execStwr k v s
  | .qmin => execQmin s
  | .qmax => execQmax s

/-- One step of the machine whose block has configuration `c` (20_memory.md R66). An ill-formed configuration is refused
(00_scope.md R11; entry 3). -/
def stepWith (c : Cfg) (s : State) : Result :=
  if c.wf then acceptEventBy (execWith c) (State.resetWith c) s else .refused .illFormedConfig

/-- The machine whose block has configuration `c`. -/
def coreWith (c : Cfg) : Host.Core :=
  { State := State, Fault := Fault, Refusal := Refusal, step := stepWith c, reset := State.resetWith c }

/-- What the outcome of a step is for the block, with the host's side left out (00_scope.md R21). -/
def BlockOutcome.ofResult (r : Result) : BlockOutcome :=
  match r with
  | .next t => .done t.toBlockState
  | .fault .u64bDiverges => .diverges
  | .fault .absentAccumulator => .undefinedMixerCall
  | .refused q => .refused q

/-- `exec : Cfg → BlockState → Command → Outcome` (00_scope.md R21). An ill-formed configuration is refused (R11;
entry 3). -/
def blockExec (c : Cfg) (b : BlockState) (cmd : Command) : BlockOutcome :=
  if c.wf then .ofResult (runCommandBy (execWith c) cmd { toBlockState := b, port := [] })
  else .refused .illFormedConfig

/-- The observation of a run (00_scope.md R21). -/
structure Observation where
  /-- RES0, RES1 and STATUS after each command that completed, in order. -/
  outputs : List (Word × Word × BitVec 32)
  /-- The final block state, or why the last command did not complete. -/
  ending  : BlockOutcome
deriving DecidableEq, Repr

/-- How a run of no commands ends: an ill-formed configuration is refused here too (00_scope.md R11; entry 3). -/
def BlockOutcome.start (c : Cfg) (b : BlockState) : BlockOutcome := if c.wf then .done b else .refused .illFormedConfig

/-- The observation of a block of configuration `c` given commands in order, from block state `b` (00_scope.md R21). -/
def observeRun (c : Cfg) : List Command → BlockState → Observation
  | [], b => { outputs := [], ending := .start c b }
  | cmd :: cmds, b =>
    match blockExec c b cmd with
    | .done t => let o := observeRun c cmds t; { o with outputs := t.observe :: o.outputs }
    | stop => { outputs := [], ending := stop }

/-- Whether the host's next event is a command that it lets complete. -/
def State.issuing (s : State) : Bool :=
  match s.port with
  | .issue _ :: _ => true
  | [] | .reset :: _ | .abandoned _ :: _ | .secondHost _ :: _ => false

/-- The observation of `n` events of the machine of configuration `c`: resets, abandoned commands and idle steps give no
output of their own (00_scope.md R21; 70_reset_and_hazards.md R262). -/
def observeEvents (c : Cfg) : Nat → State → Observation
  | 0, s => { outputs := [], ending := .start c s.toBlockState }
  | n + 1, s =>
    match stepWith c s with
    | .next t =>
      let o := observeEvents c n t
      if s.issuing then { o with outputs := t.observe :: o.outputs } else o
    | stop => { outputs := [], ending := .ofResult stop }

end Sys2Proof.Machine
end

