-- ==== Sys2Proof/Safety.lean ====
section
/-! DEFINITION. What counts as a good state and a safe run: the invariant of the block state (10_state.md R45), the
condition that keeps the engine from degenerating (10_state.md R31; 70_reset_and_hazards.md R267), and safe steps. -/

namespace Sys2Proof.Machine

/-- 10_state.md R45: ACC is valid exactly while SEEDING = 1. -/
def State.Inv (s : State) : Prop := s.acc.isSome = s.seeding

/-- Outside an open sequence seeding the engine is not all-zero (10_state.md R31, 41_generator_engine.md R150). Inside
one the words are partial sums and may be anything (70_reset_and_hazards.md R267). -/
def State.NonDegenerate (s : State) : Prop := s.seeding = false → s.engine ≠ Engine.zero

/-- A step is safe when the machine goes on. -/
def SafeStep (s : State) : Prop := ∃ t, step s = .next t

/-- A run of `n` steps is safe when every one of them goes on. -/
def SafeRun : Nat → State → Prop
  | 0, _ => True
  | n + 1, s => ∃ t, step s = .next t ∧ SafeRun n t

end Sys2Proof.Machine
end

