-- ==== Sys2Proof/Certificates/Slice0/Obligations.lean ====
section
/-! DEFINITION. The statements for the provers, in the order of the spec's files, and before them the few words they are
written in. Each docstring names the rule it formalises. -/

namespace Sys2Proof.Claims

open Sys2Proof Sys2Proof.Machine

/-- The test configuration TC1 of 95_test_vectors.md, whose mixer constants are the reference defaults of 00_scope.md
R10. It is not the hardware's: the rules' examples that need a configuration name it. -/
def tc1 : Cfg where
  mixR1 := 30
  mixM1 := 0xBF58476D1CE4E5B9
  mixR2 := 27
  mixM2 := 0x94D049BB133111EB
  mixR3 := 31
  init0 := 0
  init1 := 0
  init2 := 0
  init3 := 0
  zeroFallback := 1
  accInit := 0
  seedLoad := fun acc s => acc + s

/-- The words whose OPC is `opc`: the word with every other bit 0 decodes to `i` of ARG, every other one is ILLEGAL
(30_encoding.md R82, R83). -/
def EncodedAlone (opc : BitVec 8) (i : Word → Instr) : Prop :=
  ∀ (w : CmdWord) (arg : Word), w.extractLsb' 0 8 = opc →
    (w = opc.zeroExtend 32 → decode ⟨w, arg⟩ = .instr (i arg)) ∧
    (w ≠ opc.zeroExtend 32 → decode ⟨w, arg⟩ = .fault .illegal)

/-- The words whose OPC is `opc` and whose one operand field is IDX: with every other field 0 they decode to `i` of IDX
and ARG, every other one is ILLEGAL (30_encoding.md R82, R83, R85). -/
def EncodedWithIndex (opc : BitVec 8) (i : Fin 4 → Word → Instr) : Prop :=
  ∀ (w : CmdWord) (arg : Word), w.extractLsb' 0 8 = opc →
    (∀ k : Fin 4, w = opc.zeroExtend 32 ||| (BitVec.ofNat 32 k.val <<< 16) → decode ⟨w, arg⟩ = .instr (i k arg)) ∧
    ((∀ k : Fin 4, w ≠ opc.zeroExtend 32 ||| (BitVec.ofNat 32 k.val <<< 16)) → decode ⟨w, arg⟩ = .fault .illegal)

/-- The command faults SEQ_ORDER and does nothing else (60_exceptions.md R235, R237). -/
def FaultsSeqOrder (i : Instr) (s : State) : Prop :=
  exec i s = .next { s with code := .seqOrder, sticky := true }

/-- The product of the draw after `j` steps and the bound (42_sampling.md R173; j counts from 0). -/
def product (mx : Word) (e : Engine) (j : Nat) : BitVec 128 := mul128 (e.steps j).output mx

/-- The same command issued `n` times in a row, ending early where the machine stops. -/
def repeatExec (i : Instr) : Nat → State → Result
  | 0, s => .next s
  | n + 1, s =>
    match exec i s with
    | .next t => repeatExec i n t
    | .fault f => .fault f
    | .refused r => .refused r

/-- SEQPUSH of each scalar of a list, in order, ending early where the machine stops. -/
def pushAll : List Word → State → Result
  | [], s => .next s
  | x :: xs, s =>
    match exec (.seqpush x) s with
    | .next t => pushAll xs t
    | .fault f => .fault f
    | .refused r => .refused r

/-- Commands that write the state words (10_state.md R32). -/
def writesEngine (i : Instr) : Bool :=
  match i with
  | .next | .bits _ | .u64b _ | .u32 | .u32p | .f52 | .f53 | .discard _ | .seed _ | .seqbegin | .seqpush _ | .seqend
  | .stwr _ _ => true
  | .mix _ | .strd _ | .qmin | .qmax => false

/-- Commands that write RES0 (10_state.md R38). -/
def writesRes0 (i : Instr) : Bool :=
  match i with
  | .next | .bits _ | .u64b _ | .u32 | .u32p | .f52 | .f53 | .mix _ | .strd _ | .qmin | .qmax => true
  | .discard _ | .seed _ | .seqbegin | .seqpush _ | .seqend | .stwr _ _ => false

/-- Commands that write RES1 (10_state.md R38). -/
def writesRes1 (i : Instr) : Bool :=
  match i with
  | .u32p | .mix _ => true
  | .next | .bits _ | .u64b _ | .u32 | .f52 | .f53 | .discard _ | .seed _ | .seqbegin | .seqpush _ | .seqend | .strd _
  | .stwr _ _ | .qmin | .qmax => false

/-- Commands that write STATUS.SEEDING (10_state.md R36). -/
def writesSeeding (i : Instr) : Bool :=
  match i with
  | .seed _ | .seqbegin | .seqend => true
  | .next | .bits _ | .u64b _ | .u32 | .u32p | .f52 | .f53 | .discard _ | .seqpush _ | .mix _ | .strd _ | .stwr _ _
  | .qmin | .qmax => false

/-- Commands that need an open sequence (60_exceptions.md R235 (a)). -/
def needsOpen (i : Instr) : Bool :=
  match i with
  | .seqpush _ | .seqend => true
  | .next | .bits _ | .u64b _ | .u32 | .u32p | .f52 | .f53 | .discard _ | .seed _ | .seqbegin | .mix _ | .strd _
  | .stwr _ _ | .qmin | .qmax => false

/-- Commands that need no open sequence (60_exceptions.md R235 (b)). -/
def needsClosed (i : Instr) : Bool :=
  match i with
  | .next | .bits _ | .u64b _ | .u32 | .u32p | .f52 | .f53 | .discard _ | .stwr _ _ => true
  | .seed _ | .seqbegin | .seqpush _ | .seqend | .mix _ | .strd _ | .qmin | .qmax => false

/-- The mode in which a command runs (60_exceptions.md R235). -/
def modeAllows (i : Instr) (s : State) : Prop :=
  (needsOpen i = true → s.seeding = true) ∧ (needsClosed i = true → s.seeding = false)

/-- Two states that agree on what later results depend on: the state words, the accumulator and the mode. -/
def Twin (s t : State) : Prop := s.engine = t.engine ∧ s.acc = t.acc ∧ s.seeding = t.seeding

/-- Two outcomes of one command that no result can tell apart: twins again, with the same code, and with the same value
in each result register that the command wrote. -/
def SameResults (i : Instr) : Result → Result → Prop
  | .next s, .next t =>
    Twin s t ∧ s.code = t.code ∧ (s.code = .ok → writesRes0 i = true → s.res0 = t.res0) ∧
      (s.code = .ok → writesRes1 i = true → s.res1 = t.res1)
  | .fault f, .fault g => f = g
  | .refused q, .refused r => q = r
  | _, _ => False

/-- Two outcomes of a run that end in twins with the same host events left, or stop alike. -/
def SameCourse : Result → Result → Prop
  | .next s, .next t => Twin s t ∧ s.port = t.port
  | .fault f, .fault g => f = g
  | .refused q, .refused r => q = r
  | _, _ => False

/-- The xor of two engine states, word by word: addition over GF(2) (41_generator_engine.md R134). -/
def xorEngine (a b : Engine) : Engine := ⟨a.s0 ^^^ b.s0, a.s1 ^^^ b.s1, a.s2 ^^^ b.s2, a.s3 ^^^ b.s3⟩

end Sys2Proof.Claims

open Sys2Proof Sys2Proof.Machine Sys2Proof.Claims

/-! ### 00_scope.md -/

/-- 00_scope.md R9: GAMMA is the golden ratio's fraction scaled to 64 bits and truncated, which is odd; rounding to
nearest would give an even number. -/
def Obligations.GammaIsTheTruncatedGoldenFraction : Prop :=
  Config.gamma = 0x9E3779B97F4A7C15 ∧
  ⌊(Real.goldenRatio - 1) * 2 ^ 64⌋ = (Config.gamma.toNat : ℤ) ∧
  Config.gamma.toNat % 2 = 1 ∧
  round ((Real.goldenRatio - 1) * 2 ^ 64) = 0x9E3779B97F4A7C16

/-- 00_scope.md R11, 70_reset_and_hazards.md R260, R264: the constraints of a well-formed configuration, and that bringing
up a block with any other one is refused. A well-formed one starts in the reset state. Bringing up a block by powerOn is
the model's form of this (entry 3). -/
def Obligations.IllFormedConfigurationIsRefused : Prop :=
  ∀ c : Cfg,
    ((1 ≤ c.mixR1 ∧ c.mixR1 ≤ 63) ∧ (1 ≤ c.mixR2 ∧ c.mixR2 ≤ 63) ∧ (1 ≤ c.mixR3 ∧ c.mixR3 ≤ 63) ∧
        c.mixM1.toNat % 2 = 1 ∧ c.mixM2.toNat % 2 = 1 ∧ c.mixM1 ≠ c.mixM2 ∧ c.zeroFallback ≠ 0 →
      powerOn c = .next (State.resetWith c)) ∧
    (¬ ((1 ≤ c.mixR1 ∧ c.mixR1 ≤ 63) ∧ (1 ≤ c.mixR2 ∧ c.mixR2 ≤ 63) ∧ (1 ≤ c.mixR3 ∧ c.mixR3 ≤ 63) ∧
        c.mixM1.toNat % 2 = 1 ∧ c.mixM2.toNat % 2 = 1 ∧ c.mixM1 ≠ c.mixM2 ∧ c.zeroFallback ≠ 0) →
      powerOn c = .refused .illFormedConfig)

/-- 00_scope.md R15, R16: the rotation rotl is the circular left rotation by its formula, rotr its complement, and mul128 the exact
product, split into halves. -/
def Obligations.RotationAndProductAreExact : Prop :=
  (∀ (x : Word) (r : Nat), 0 < r → r < 64 →
    rotl x r = ((x <<< r) ||| (x >>> (64 - r))) ∧
    (∀ i, i < 64 → (rotl x r).getLsbD i = x.getLsbD ((i + (64 - r)) % 64)) ∧
    rotr x r = rotl x (64 - r)) ∧
  (∀ a b : Word,
    (mul128 a b).toNat = a.toNat * b.toNat ∧
    (hi64 (mul128 a b)).toNat = (a.toNat * b.toNat) / 2 ^ 64 ∧
    (lo64 (mul128 a b)).toNat = (a.toNat * b.toNat) % 2 ^ 64)

/-! ### 40_seed_mixer.md -/

/-- 40_seed_mixer.md R110: the mixer's formula, for every configuration. -/
def Obligations.MixerFollowsItsFormula : Prop :=
  ∀ (c : Cfg) (acc : Word),
    let acc' := acc + 0x9E3779B97F4A7C15
    let z1 := (acc' ^^^ (acc' >>> c.mixR1)) * c.mixM1
    let z2 := (z1 ^^^ (z1 >>> c.mixR2)) * c.mixM2
    mix c acc = (z2 ^^^ (z2 >>> c.mixR3), acc')

/-- 40_seed_mixer.md R112: the mixer's output is a bijection of the accumulator; it is 0 exactly for the accumulator
whose increment wraps to 0; and k calls in a row give the accumulators a + k·GAMMA, all distinct for k up to 2^64. -/
def Obligations.MixerIsBijectiveAndThreadsTheAccumulator : Prop :=
  ∀ c : Cfg, c.wf = true →
    Function.Bijective (fun acc => (mix c acc).1) ∧
    (∀ acc : Word, (mix c acc).1 = 0 ↔ acc = 0x61C8864680B583EB) ∧
    mix c 0x61C8864680B583EB = (0, 0) ∧
    (∀ (a : Word) (k : Nat), (fun acc => (mix c acc).2)^[k] a = a + BitVec.ofNat 64 k * 0x9E3779B97F4A7C15) ∧
    (∀ (a : Word) (j k : Nat), 1 ≤ j → j < k → k ≤ 2 ^ 64 →
      (fun acc => (mix c acc).2)^[j] a ≠ (fun acc => (mix c acc).2)^[k] a)

/-- 40_seed_mixer.md R113: MIX, whole: in either mode it writes the mixer's output and the new accumulator, and neither
S nor ACC nor SEEDING; RES1 fed back continues the mixer stream; and the rule's example under the reference defaults. -/
def Obligations.MixWritesOutputAndAccumulator : Prop :=
  EncodedAlone 0x18 Instr.mix ∧
  (∀ (acc : Word) (s : State),
    exec (.mix acc) s =
      .next { s with res0 := (mix Config.cfg acc).1, res1 := acc + 0x9E3779B97F4A7C15, code := .ok }) ∧
  (∀ s : State, exec (.mix 0x61C8864680B583EB) s = .next { s with res0 := 0, res1 := 0, code := .ok }) ∧
  (∀ s : State, ∃ t, exec (.mix 0xFFFFFFFFFFFFFFFF) s = .next t ∧ t.res1 = 0x9E3779B97F4A7C14) ∧
  (∀ (acc : Word) (s : State), ∃ t u, exec (.mix acc) s = .next t ∧ exec (.mix t.res1) t = .next u ∧
    u.res0 = (mix Config.cfg (mix Config.cfg acc).2).1 ∧ u.res1 = acc + 2 * 0x9E3779B97F4A7C15) ∧
  (∀ s : State, mixWith tc1 0 s =
    .next { s with res0 := 0xE220A8397B1DCDAF, res1 := 0x9E3779B97F4A7C15, code := .ok })

/-! ### 41_generator_engine.md -/

/-- 41_generator_engine.md R130, R131, R132: the output from the old s1 alone, and the new words in closed form. -/
def Obligations.EngineStepFollowsTheSchedule : Prop :=
  ∀ s0 s1 s2 s3 : Word,
    Engine.step ⟨s0, s1, s2, s3⟩ =
      ((s1 * 5).rotateLeft 7 * 9,
       ⟨s0 ^^^ s3 ^^^ s1, s1 ^^^ s2 ^^^ s0, s2 ^^^ s0 ^^^ (s1 <<< 17), (s3 ^^^ s1).rotateLeft 45⟩)

/-- 41_generator_engine.md R133, R135: the all-zero state steps to itself with output 0, s1 = 0 outputs 0, and the
other extreme is reached too. -/
def Obligations.OutputExtremesAndTheZeroState : Prop :=
  Engine.step ⟨0, 0, 0, 0⟩ = (0, ⟨0, 0, 0, 0⟩) ∧
  (∀ s0 s2 s3 : Word, (Engine.step ⟨s0, 0, s2, s3⟩).1 = 0) ∧
  (∀ s0 s2 s3 : Word, (Engine.step ⟨s0, 0x4FC71C71C71C71C7, s2, s3⟩).1 = 0xFFFFFFFFFFFFFFFF)

/-- 41_generator_engine.md R134: the state map is a bijection with the inverse the rule gives, linear over GF(2), and it
sends only the all-zero state to the all-zero state; so no state reached from another one is all-zero. -/
def Obligations.StateMapIsALinearBijection : Prop :=
  Function.Bijective Engine.advance ∧
  (∀ e : Engine, e.advance.unstep = e ∧ e.unstep.advance = e) ∧
  (∀ a b : Engine, (xorEngine a b).advance = xorEngine a.advance b.advance) ∧
  Engine.zero.advance = Engine.zero ∧
  (∀ (e : Engine) (n : Nat), e ≠ Engine.zero → e.steps n ≠ Engine.zero)

/-- 41_generator_engine.md R137: NEXT, whole: outside a sequence RES0 gets the output of one step and S the next state;
inside one SEQ_ORDER; its encoding and its assembler aliases; the all-zero state; and the rule's example. -/
def Obligations.NextDrawsOnce : Prop :=
  EncodedAlone 0x01 (fun _ => .next) ∧
  ((AsmLine.core .next).assemble = some [⟨0x00000001, 0⟩] ∧ AsmLine.u64.assemble = some [⟨0x00000001, 0⟩] ∧
    AsmLine.bitsRaw.assemble = some [⟨0x00000001, 0⟩]) ∧
  (∀ s : State, s.seeding = false →
    exec .next s = .next { s with engine := s.engine.step.2, res0 := s.engine.step.1, code := .ok }) ∧
  (∀ s : State, s.seeding = true → FaultsSeqOrder .next s) ∧
  (∀ s : State, s.seeding = false → s.engine = ⟨0, 0, 0, 0⟩ → exec .next s = .next { s with res0 := 0, code := .ok }) ∧
  (∀ s : State, s.seeding = false → s.engine = ⟨1, 2, 3, 4⟩ →
    exec .next s =
      .next { s with engine := ⟨0x7, 0x0, 0x40002, 0x0000C00000000000⟩, res0 := 0x2D00, code := .ok })

/-- 41_generator_engine.md R138: DISCARD, whole: it steps the engine ARG times and writes neither result register. -/
def Obligations.DiscardStepsItsCount : Prop :=
  EncodedAlone 0x08 Instr.discard ∧
  (∀ (n : Word) (s : State), s.seeding = false →
    exec (.discard n) s = .next { s with engine := (Engine.advance)^[n.toNat] s.engine, code := .ok }) ∧
  (∀ (n : Word) (s : State), s.seeding = true → FaultsSeqOrder (.discard n) s) ∧
  (∀ s : State, s.seeding = false → exec (.discard 0) s = .next { s with code := .ok }) ∧
  (∀ (n : Word) (s : State), s.seeding = false → s.engine = ⟨0, 0, 0, 0⟩ →
    exec (.discard n) s = .next { s with code := .ok }) ∧
  (∀ s : State, s.seeding = false → s.engine = ⟨1, 2, 3, 4⟩ →
    exec (.discard 3) s =
      .next { s with engine := ⟨0x0000C00018040002, 0x0000C00000000007, 0x0000C008000E0002, 0x8000A00000000300⟩,
                     code := .ok })

/-- 41_generator_engine.md R139: DISCARD n and n NEXT commands in a row end in states that differ in RES0 alone (and, for
n = 0, in CODE, which only a command writes); and two DISCARDs add up when their counts do not overflow. -/
def Obligations.DiscardEqualsRepeatedNext : Prop :=
  (∀ (n : Word) (s : State), s.seeding = false →
    ∃ t u, exec (.discard n) s = .next t ∧ repeatExec .next n.toNat s = .next u ∧
      t.engine = u.engine ∧ t = { u with res0 := s.res0, code := .ok }) ∧
  (∀ (a b : Word) (s : State), s.seeding = false → a.toNat + b.toNat < 2 ^ 64 →
    ∃ t, exec (.discard a) s = .next t ∧ exec (.discard b) t = exec (.discard (a + b)) s)

/-- 41_generator_engine.md R141 to R144: the four phases of seeding, for every configuration: the initial words and
accumulator; one scalar entering the accumulator by SEED_LOAD and four threaded mixer outputs added in index order; the
substitution in an all-zero state; 256 steps. -/
def Obligations.SeedingPhases : Prop :=
  ∀ c : Cfg,
    seedInit c = (⟨c.init0, c.init1, c.init2, c.init3⟩, c.accInit) ∧
    (∀ s0 s1 s2 s3 acc x : Word,
      let a0 := c.seedLoad acc x
      let a1 := (mix c a0).2
      let a2 := (mix c a1).2
      let a3 := (mix c a2).2
      mixIn c (⟨s0, s1, s2, s3⟩, acc) x =
        (⟨s0 + (mix c a0).1, s1 + (mix c a1).1, s2 + (mix c a2).1, s3 + (mix c a3).1⟩, (mix c a3).2)) ∧
    zeroCheck c ⟨0, 0, 0, 0⟩ = ⟨0, c.zeroFallback, 0, 0⟩ ∧
    (∀ e : Engine, e ≠ ⟨0, 0, 0, 0⟩ → zeroCheck c e = e) ∧
    (∀ e : Engine, burnIn e = (Engine.advance)^[256] e)

/-- 41_generator_engine.md R145: SEQBEGIN, whole: in either mode S gets INIT, ACC gets ACC_INIT, SEEDING gets 1; and STRD
in the open sequence shows INIT, and after a list of pushes, of any length, INIT with the mixer outputs added so far. -/
def Obligations.SeqbeginOpensASequence : Prop :=
  EncodedAlone 0x11 (fun _ => .seqbegin) ∧
  (∀ s : State,
    exec .seqbegin s =
      .next { s with engine := ⟨Config.cfg.init0, Config.cfg.init1, Config.cfg.init2, Config.cfg.init3⟩,
                     acc := some Config.cfg.accInit, seeding := true, code := .ok }) ∧
  (∀ (i : Fin 4) (s : State), ∃ a b, exec .seqbegin s = .next a ∧ exec (.strd i) a = .next b ∧
    b.res0 = [Config.cfg.init0, Config.cfg.init1, Config.cfg.init2, Config.cfg.init3][i.val]!) ∧
  (∀ (i : Fin 4) (xs : List Word) (s : State), ∃ a b c, exec .seqbegin s = .next a ∧ pushAll xs a = .next b ∧
    exec (.strd i) b = .next c ∧ c.res0 = (xs.foldl (mixIn Config.cfg) (seedInit Config.cfg)).1.get i)

/-- 41_generator_engine.md R146: SEQPUSH: MixIn on the words and the accumulator while a sequence is open, for
every scalar; SEQ_ORDER otherwise; and the rule's example under TC1. -/
def Obligations.SeqpushMixesOneScalar : Prop :=
  EncodedAlone 0x12 Instr.seqpush ∧
  (∀ (x a : Word) (s : State), s.seeding = true → s.acc = some a →
    exec (.seqpush x) s =
      .next { s with engine := (mixIn Config.cfg (s.engine, a) x).1,
                     acc := some (mixIn Config.cfg (s.engine, a) x).2, code := .ok }) ∧
  (∀ (x : Word) (s : State), s.seeding = false → FaultsSeqOrder (.seqpush x) s) ∧
  (∀ s : State, ∃ t u, seqbeginWith tc1 s = .next t ∧ seqpushWith tc1 0 t = .next u ∧
    u.engine = ⟨0xE220A8397B1DCDAF, 0x6E789E6AA1B965F4, 0x06C45D188009454F, 0xF88BB8A8724C81EC⟩)

/-- 41_generator_engine.md R147: SEQEND, whole: ZeroCheck and BurnIn, ACC invalid, SEEDING 0; SEQ_ORDER where no
sequence is open. Straight after SEQBEGIN it completes too, with the end state of the rule's example under TC1. -/
def Obligations.SeqendClosesTheSequence : Prop :=
  EncodedAlone 0x13 (fun _ => .seqend) ∧
  (∀ s : State, s.seeding = true →
    exec .seqend s =
      .next { s with engine := burnIn (zeroCheck Config.cfg s.engine), acc := none, seeding := false, code := .ok }) ∧
  (∀ s : State, s.seeding = false → FaultsSeqOrder .seqend s) ∧
  (∀ s : State, ∃ t u, exec .seqbegin s = .next t ∧ exec .seqend t = .next u ∧ u.code = .ok ∧
    u.engine =
      burnIn (zeroCheck Config.cfg ⟨Config.cfg.init0, Config.cfg.init1, Config.cfg.init2, Config.cfg.init3⟩)) ∧
  (∀ s : State, ∃ t u, seqbeginWith tc1 s = .next t ∧ seqendWith tc1 t = .next u ∧
    u.engine = ⟨0xBF638FEA7303E187, 0x08E64352F6C6DC95, 0x809FE9AF969D7452, 0x4139618274C84C3B⟩)

/-- 41_generator_engine.md R148: SEED, whole: the protocol for one scalar in either mode; it leaves the S of the same
scalar pushed through a sequence; and seed 18914 leaves the reset state's S. -/
def Obligations.SeedRunsTheWholeProtocol : Prop :=
  EncodedAlone 0x10 Instr.seed ∧
  (∀ (x : Word) (s : State),
    exec (.seed x) s =
      .next { s with engine := burnIn (zeroCheck Config.cfg (mixIn Config.cfg (seedInit Config.cfg) x).1),
                     acc := none, seeding := false, code := .ok }) ∧
  (∀ (x : Word) (s : State), ∃ a b t u,
    exec .seqbegin s = .next a ∧ exec (.seqpush x) a = .next b ∧ exec .seqend b = .next t ∧
    exec (.seed x) s = .next u ∧ t.engine = u.engine) ∧
  (∀ s : State, ∃ t, exec (.seed 18914) s = .next t ∧ t.engine = State.reset.engine)

/-- 41_generator_engine.md R140, R149: the host issues `seqbegin`, one `seqpush` for each scalar of a list of any length,
the empty one included, and `seqend`: that many steps leave the state of the seeding protocol over the list, ACC invalid,
and the host's remaining events. That the host's events are a list in the state is the model's choice (entry 4). -/
def Obligations.SequenceSeedingRunsTheProtocol : Prop :=
  ∀ (xs : List Word) (rest : List PortEvent) (s : State),
    s.port = .issue ⟨0x00000011, 0⟩ :: xs.map (fun x => .issue ⟨0x00000012, x⟩) ++ .issue ⟨0x00000013, 0⟩ :: rest →
    Host.Core.run Sys2Proof.core (xs.length + 2) s =
      .next { s with engine := burnIn (zeroCheck Config.cfg (xs.foldl (mixIn Config.cfg) (seedInit Config.cfg)).1),
                     acc := none, seeding := false, code := .ok, port := rest }

/-- 41_generator_engine.md R150: after SEED, and after a SEQEND that succeeds, S is not all-zero; more generally no
seeding sequence under any well-formed configuration leaves it all-zero. -/
def Obligations.SeededEngineIsNeverZero : Prop :=
  (∀ (x : Word) (s : State), ∃ t, exec (.seed x) s = .next t ∧ t.engine ≠ ⟨0, 0, 0, 0⟩) ∧
  (∀ s : State, s.seeding = true → ∃ t, exec .seqend s = .next t ∧ t.engine ≠ ⟨0, 0, 0, 0⟩) ∧
  (∀ (c : Cfg) (xs : List Word), c.wf = true → seedSequence c xs ≠ ⟨0, 0, 0, 0⟩)

/-- 41_generator_engine.md R152, R153: engines are equal iff their state words are; and of two equal non-zero engines,
one that draws once becomes unequal to the other, while an all-zero one stays equal. -/
def Obligations.EqualEnginesDifferAfterOneDraw : Prop :=
  (∀ s t : State, s.sameEngine t = true ↔
    s.engine.s0 = t.engine.s0 ∧ s.engine.s1 = t.engine.s1 ∧ s.engine.s2 = t.engine.s2 ∧ s.engine.s3 = t.engine.s3) ∧
  (∀ s t : State, s.sameEngine t = true → s.engine ≠ ⟨0, 0, 0, 0⟩ → s.seeding = false →
    ∃ u, exec .next s = .next u ∧ u.sameEngine t = false) ∧
  (∀ s : State, s.engine = ⟨0, 0, 0, 0⟩ → s.seeding = false → ∃ u, exec .next s = .next u ∧ u.sameEngine s = true)

/-! ### 42_sampling.md -/

/-- 42_sampling.md R171: BITS, whole: the top b bits of one draw for 0 ≤ b ≤ 64, with 0 for b = 0 and the whole draw for
b = 64, always below 2^b; BITS_RANGE and no draw above 64; and the rule's examples. -/
def Obligations.BitsTruncatesADraw : Prop :=
  (∀ (w : CmdWord) (arg : Word), w.extractLsb' 0 8 = 0x02 →
    (w.extractLsb' 16 16 ≠ 0 → decode ⟨w, arg⟩ = .fault .illegal) ∧
    (w.extractLsb' 16 16 = 0 → (w.extractLsb' 8 8).toNat ≤ 64 →
      decode ⟨w, arg⟩ = .instr (.bits (w.extractLsb' 8 8))) ∧
    (w.extractLsb' 16 16 = 0 → 64 < (w.extractLsb' 8 8).toNat → ∀ s : State,
      runCommand ⟨w, arg⟩ s = .next { s with code := .bitsRange, sticky := true })) ∧
  (∀ (b : BitVec 8) (s : State), 1 ≤ b.toNat → b.toNat ≤ 64 → s.seeding = false →
    exec (.bits b) s =
      .next { s with engine := s.engine.step.2, res0 := s.engine.step.1 >>> (64 - b.toNat), code := .ok }) ∧
  (∀ s : State, s.seeding = false →
    exec (.bits 0) s = .next { s with engine := s.engine.step.2, res0 := 0, code := .ok }) ∧
  (∀ s : State, exec (.bits 64) s = exec .next s) ∧
  (∀ (b : BitVec 8) (s : State), b.toNat ≤ 64 → s.seeding = true → FaultsSeqOrder (.bits b) s) ∧
  (∀ (b : BitVec 8) (s : State), b.toNat ≤ 64 → s.seeding = false →
    ∃ t, exec (.bits b) s = .next t ∧ t.res0.toNat < 2 ^ b.toNat) ∧
  (∀ s : State, s.seeding = false → s.engine.step.1 = 0x123456789ABCDEF0 →
    (∃ t, exec (.bits 1) s = .next t ∧ t.res0 = 0) ∧ (∃ t, exec (.bits 4) s = .next t ∧ t.res0 = 1) ∧
    (∃ t, exec (.bits 32) s = .next t ∧ t.res0 = 0x12345678) ∧
    (∃ t, exec (.bits 63) s = .next t ∧ t.res0 = 0x091A2B3C4D5E6F78))

/-- 42_sampling.md R172: BITS 64 is NEXT and BITS 32 is U32 in RES0 and S, and every BITS result is below 2^b. -/
def Obligations.TruncationIdentities : Prop :=
  (∀ s : State, s.seeding = false → ∃ t u, exec (.bits 64) s = .next t ∧ exec .next s = .next u ∧
    t.res0 = u.res0 ∧ t.engine = u.engine) ∧
  (∀ s : State, s.seeding = false → ∃ t u, exec (.bits 32) s = .next t ∧ exec .u32 s = .next u ∧
    t.res0 = u.res0 ∧ t.engine = u.engine) ∧
  (∀ (b : BitVec 8) (s : State), b.toNat ≤ 64 → s.seeding = false →
    ∃ t, exec (.bits b) s = .next t ∧ t.res0.toNat < 2 ^ b.toNat)

/-- 42_sampling.md R173, R175, R176: U64B, whole: the mode and DOMAIN checks; the fast path; the first product whose low
half reaches the threshold ends the loop, each draw one step; the result is below the bound; and the corners: bound 1,
a power of two, and 2^64 - 1, whose threshold is 1. -/
def Obligations.BoundedDrawReturnsTheFirstAcceptedProduct : Prop :=
  EncodedAlone 0x03 Instr.u64b ∧
  (∀ (mx : Word) (s : State), s.seeding = true → FaultsSeqOrder (.u64b mx) s) ∧
  (∀ s : State, s.seeding = false → exec (.u64b 0) s = .next { s with code := .domain, sticky := true }) ∧
  (∀ (mx : Word) (s : State), s.seeding = false → mx ≠ 0 → mx ≤ lo64 (product mx s.engine 0) →
    exec (.u64b mx) s =
      .next { s with engine := s.engine.step.2, res0 := hi64 (product mx s.engine 0), code := .ok }) ∧
  (∀ (mx : Word) (s : State) (k : Nat), s.seeding = false → mx ≠ 0 →
    (∀ j, j < k → lo64 (product mx s.engine j) < (0 - mx) % mx) → (0 - mx) % mx ≤ lo64 (product mx s.engine k) →
    exec (.u64b mx) s =
      .next { s with engine := (Engine.advance)^[k + 1] s.engine, res0 := hi64 (product mx s.engine k),
                     code := .ok }) ∧
  (∀ (mx : Word) (s t : State), s.seeding = false → mx ≠ 0 → exec (.u64b mx) s = .next t → t.res0 < mx) ∧
  (∀ s : State, s.seeding = false →
    exec (.u64b 1) s = .next { s with engine := s.engine.step.2, res0 := 0, code := .ok }) ∧
  (∀ (p : Nat) (s : State), 1 ≤ p → p < 64 → s.seeding = false →
    exec (.u64b (BitVec.twoPow 64 p)) s =
      .next { s with engine := s.engine.step.2, res0 := s.engine.step.1 >>> (64 - p), code := .ok }) ∧
  (0 - 0xFFFFFFFFFFFFFFFF : Word) % 0xFFFFFFFFFFFFFFFF = 1 ∧
  (∀ s : State, s.seeding = false → s.engine.step.1 = 0x123456789ABCDEF0 →
    exec (.u64b 1000) s = .next { s with engine := s.engine.step.2, res0 := 0x47, code := .ok })

/-- 42_sampling.md R174: the rejection threshold and its facts. -/
def Obligations.RejectionThresholdFacts : Prop :=
  (∀ mx : Word, mx ≠ 0 →
    (threshold mx).toNat = (2 ^ 64 - mx.toNat) % mx.toNat ∧
    (threshold mx).toNat = 2 ^ 64 % mx.toNat ∧
    threshold mx < mx ∧
    (threshold mx = 0 ↔ mx.toNat ∣ 2 ^ 64) ∧
    (threshold mx = 0 ↔ ∃ k, mx.toNat = 2 ^ k)) ∧
  threshold 3 = 1 ∧ threshold 7 = 2 ∧ threshold 1000 = 616 ∧
  threshold 0x8000000000000001 = 0x7FFFFFFFFFFFFFFF

/-- 42_sampling.md R177, 70_reset_and_hazards.md R270: U64B completes exactly when some draw meets its test, and
otherwise diverges, which the model reports as not completed; from the all-zero state it completes, with RES0 = 0,
exactly when the bound is a power of two; and a draw of 1 anywhere ahead makes it complete. -/
def Obligations.BoundedDrawCompletesExactlyWhenADrawPasses : Prop :=
  (∀ (mx : Word) (s : State), s.seeding = false → mx ≠ 0 →
    ((∃ t, exec (.u64b mx) s = .next t) ↔
      mx ≤ lo64 (product mx s.engine 0) ∨ ∃ j, (0 - mx) % mx ≤ lo64 (product mx s.engine j)) ∧
    (exec (.u64b mx) s = .fault .u64bDiverges ↔
      ¬ (mx ≤ lo64 (product mx s.engine 0) ∨ ∃ j, (0 - mx) % mx ≤ lo64 (product mx s.engine j)))) ∧
  (∀ (mx : Word) (s : State), s.seeding = false → mx ≠ 0 → s.engine = ⟨0, 0, 0, 0⟩ →
    ((∃ k, mx.toNat = 2 ^ k) → exec (.u64b mx) s = .next { s with res0 := 0, code := .ok }) ∧
    ((¬ ∃ k, mx.toNat = 2 ^ k) → exec (.u64b mx) s = .fault .u64bDiverges)) ∧
  (∀ (mx : Word) (s : State) (j : Nat), s.seeding = false → mx ≠ 0 → (s.engine.steps j).step.1 = 1 →
    ∃ t, exec (.u64b mx) s = .next t)

/-- 42_sampling.md R189: U64B is unbiased over one draw given acceptance: for each result below the bound the number of
accepted draws that give it is the same, the quotient of 2^64 by the bound. -/
def Obligations.AcceptedDrawsAreExactlyUniform : Prop :=
  ∀ mx r : Word, mx ≠ 0 → r < mx →
    Nat.card { x : Word // ¬ lo64 (mul128 x mx) < threshold mx ∧ hi64 (mul128 x mx) = r } = 2 ^ 64 / mx.toNat

/-- 42_sampling.md R178: U32, whole: outside a sequence RES0 gets the top 32 bits of one draw, which is below 2^32 and what
BITS 32 gives; inside one SEQ_ORDER; its encoding; and the rule's example. -/
def Obligations.U32ReturnsTheHighHalf : Prop :=
  EncodedAlone 0x04 (fun _ => .u32) ∧
  (∀ s : State, s.seeding = false →
    exec .u32 s = .next { s with engine := s.engine.step.2, res0 := s.engine.step.1 >>> 32, code := .ok }) ∧
  (∀ s t : State, s.seeding = false → exec .u32 s = .next t → t.res0.toNat < 2 ^ 32) ∧
  (∀ s : State, exec .u32 s = exec (.bits 32) s) ∧
  (∀ s : State, s.seeding = true → FaultsSeqOrder .u32 s) ∧
  (∀ s : State, s.seeding = false → s.engine.step.1 = 0x123456789ABCDEF0 →
    ∃ t, exec .u32 s = .next t ∧ t.res0 = 0x0000000012345678)

/-- 42_sampling.md R179: U32P, whole: both halves of one draw, which put together are the draw. -/
def Obligations.U32pReturnsBothHalves : Prop :=
  EncodedAlone 0x05 (fun _ => .u32p) ∧
  (∀ s : State, s.seeding = false →
    exec .u32p s =
      .next { s with engine := s.engine.step.2, res0 := s.engine.step.1 &&& 0x00000000FFFFFFFF,
                     res1 := s.engine.step.1 >>> 32, code := .ok }) ∧
  (∀ s : State, s.seeding = false → ∃ t, exec .u32p s = .next t ∧
    t.res1.extractLsb' 0 32 ++ t.res0.extractLsb' 0 32 = s.engine.step.1) ∧
  (∀ s : State, s.seeding = true → FaultsSeqOrder .u32p s) ∧
  (∀ s : State, s.seeding = false → s.engine.step.1 = 0x123456789ABCDEF0 →
    ∃ t, exec .u32p s = .next t ∧ t.res0 = 0x9ABCDEF0 ∧ t.res1 = 0x12345678)

/-- 42_sampling.md R180: F52, whole: RES0 encodes the exact difference of the pattern in [1, 2) and the constant
1 - 2^-53, and the low 12 bits of the draw do not matter. -/
def Obligations.F52EncodesTheSubtraction : Prop :=
  EncodedAlone 0x06 (fun _ => .f52) ∧
  (∀ s : State, s.seeding = false →
    exec .f52 s = .next { s with engine := s.engine.step.2, res0 := f52bits s.engine.step.1, code := .ok }) ∧
  (∀ x : Word, binary64Value (f52bits x) =
    binary64Value (0x3FF0000000000000 ||| (x >>> 12)) - binary64Value 0x3FEFFFFFFFFFFFFF) ∧
  (∀ s : State, s.seeding = true → FaultsSeqOrder .f52 s) ∧
  f52bits 0 = 0x3CA0000000000000 ∧ f52bits 0xFFFFFFFFFFFFFFFF = 0x3FEFFFFFFFFFFFFF ∧
  (∀ x y : Word, x >>> 12 = y >>> 12 → f52bits x = f52bits y) ∧
  f52bits 0x123456789ABCDEF0 = 0x3FB23456789ABCD8

/-- 42_sampling.md R181, R182: the value of F52's result is (2k + 1)·2^-53 exactly, it lies between 2^-53 and
1 - 2^-53, both reached, and each value comes from 2^12 draws. -/
def Obligations.F52IsExactAndInsideTheOpenInterval : Prop :=
  (∀ x : Word, binary64Value (f52bits x) = (2 * ((x >>> 12).toNat : ℚ) + 1) / 2 ^ 53) ∧
  (∀ x : Word, 1 / 2 ^ 53 ≤ binary64Value (f52bits x) ∧ binary64Value (f52bits x) ≤ 1 - 1 / 2 ^ 53) ∧
  binary64Value (f52bits 0) = 1 / 2 ^ 53 ∧ binary64Value (f52bits 0xFFFFFFFFFFFFFFFF) = 1 - 1 / 2 ^ 53 ∧
  (∀ x : Word, Nat.card { y : Word // f52bits y = f52bits x } = 2 ^ 12)

/-- 42_sampling.md R183: the constant F52 subtracts is 1 - 2^-53, since the machine epsilon is 2^-52, the gap above 1.0; and
1 - 2^-54, the constant of the other convention, has no binary64 word. -/
def Obligations.F52Constants : Prop :=
  binary64Value 0x3FEFFFFFFFFFFFFF = 1 - 1 / 2 ^ 53 ∧ binary64Value 0x3FF0000000000000 = 1 ∧
  binary64Value 0x3FF0000000000001 - binary64Value 0x3FF0000000000000 = 1 / 2 ^ 52 ∧
  (∀ w : Word, (w.extractLsb' 52 11).toNat ≠ 2047 → binary64Value w ≠ 1 - 1 / 2 ^ 54)

/-- 42_sampling.md R184: F53, whole: RES0 encodes k·2^-53, k the upper 53 bits of the draw. -/
def Obligations.F53EncodesTheScaledInteger : Prop :=
  EncodedAlone 0x07 (fun _ => .f53) ∧
  (∀ s : State, s.seeding = false →
    exec .f53 s = .next { s with engine := s.engine.step.2, res0 := f53bits s.engine.step.1, code := .ok }) ∧
  (∀ x : Word, binary64Value (f53bits x) = ((x >>> 11).toNat : ℚ) / 2 ^ 53) ∧
  (∀ s : State, s.seeding = true → FaultsSeqOrder .f53 s) ∧
  (∀ x : Word, x.toNat < 2 ^ 11 → f53bits x = 0) ∧
  f53bits 0x800 = 0x3CA0000000000000 ∧ f53bits 0xFFFFFFFFFFFFFFFF = 0x3FEFFFFFFFFFFFFF ∧
  (∀ x : Word, f53bits x ≠ 0x3FF0000000000000 ∧ f53bits x ≠ 0x8000000000000000) ∧
  f53bits 0x123456789ABCDEF0 = 0x3FB23456789ABCD8

/-- 42_sampling.md R186: F52 and F53 of one draw agree exactly when bit 11 is 1; when it is 0, F52 exceeds F53 by
2^-53. -/
def Obligations.F52AndF53AgreeExactlyOnBit11 : Prop :=
  ∀ x : Word,
    (f52bits x = f53bits x ↔ x.getLsbD 11 = true) ∧
    (x.getLsbD 11 = false → binary64Value (f52bits x) = binary64Value (f53bits x) + 1 / 2 ^ 53)

/-- 42_sampling.md R187: no floating-point result is negative, NaN, infinite or subnormal. -/
def Obligations.FloatResultsAreNormalOrZero : Prop :=
  ∀ x : Word,
    ((f52bits x).getLsbD 63 = false ∧ 0 < ((f52bits x).extractLsb' 52 11).toNat ∧
      ((f52bits x).extractLsb' 52 11).toNat < 1023) ∧
    (f53bits x = 0 ∨ ((f53bits x).getLsbD 63 = false ∧ 0 < ((f53bits x).extractLsb' 52 11).toNat ∧
      ((f53bits x).extractLsb' 52 11).toNat < 1023))

/-- 00_scope.md R17: an encoding of a finite number other than 0 is that number's only one, so a statement of a result's
value says which word it is. -/
def Obligations.Binary64EncodingIsUnique : Prop :=
  ∀ v w : Word, (v.extractLsb' 52 11).toNat ≠ 2047 → (w.extractLsb' 52 11).toNat ≠ 2047 →
    binary64Value v = binary64Value w → binary64Value v ≠ 0 → v = w

/-! ### 43_state_interface.md -/

/-- 43_state_interface.md R210: STRD, whole: in either mode RES0 gets the word of the index, and only CODE changes beside. -/
def Obligations.StrdExportsOneWord : Prop :=
  EncodedWithIndex 0x20 (fun i _ => .strd i) ∧
  (∀ (i : Fin 4) (s : State),
    exec (.strd i) s =
      .next { s with res0 := [s.engine.s0, s.engine.s1, s.engine.s2, s.engine.s3][i.val]!, code := .ok }) ∧
  (∀ s : State, s.engine = ⟨1, 2, 3, 4⟩ → exec (.strd 2) s = .next { s with res0 := 3, code := .ok })

/-- 43_state_interface.md R211: STWR, whole: the word of the index gets ARG, unchecked, and the other words stay;
SEQ_ORDER while a sequence is open. Four of them with zeros make the all-zero state without a fault. -/
def Obligations.StwrImportsOneWord : Prop :=
  EncodedWithIndex 0x21 Instr.stwr ∧
  (∀ (i : Fin 4) (v : Word) (s : State), s.seeding = false →
    exec (.stwr i v) s =
      .next { s with engine := ⟨if i = 0 then v else s.engine.s0, if i = 1 then v else s.engine.s1,
                                if i = 2 then v else s.engine.s2, if i = 3 then v else s.engine.s3⟩,
                     code := .ok }) ∧
  (∀ (i : Fin 4) (v : Word) (s : State), s.seeding = true → FaultsSeqOrder (.stwr i v) s) ∧
  (∀ s : State, s.seeding = false → ∃ a b c, exec (.stwr 0 0) s = .next a ∧ exec (.stwr 1 0) a = .next b ∧
    exec (.stwr 2 0) b = .next c ∧ exec (.stwr 3 0) c = .next { s with engine := ⟨0, 0, 0, 0⟩, code := .ok }) ∧
  (∀ s : State, s.seeding = false → s.engine = ⟨1, 2, 3, 4⟩ →
    exec (.stwr 3 0xFF) s = .next { s with engine := ⟨1, 2, 3, 0xFF⟩, code := .ok })

/-- 43_state_interface.md R212: a host that reads the four words of `s` with STRD and writes them with STWR to `t` leaves
an engine equal to that of `s`, and from there the same later events have the same course, whatever they are, each later
command giving the same results. -/
def Obligations.ImportResumesTheExportedStream : Prop :=
  ∀ (s t r0 r1 r2 r3 : State) (rest : List PortEvent),
    s.Inv → t.Inv → s.seeding = false → t.seeding = false → s.port = rest →
    exec (.strd 0) s = .next r0 → exec (.strd 1) s = .next r1 →
    exec (.strd 2) s = .next r2 → exec (.strd 3) s = .next r3 →
    t.port = .issue ⟨0x00000021, r0.res0⟩ :: .issue ⟨0x00010021, r1.res0⟩ :: .issue ⟨0x00020021, r2.res0⟩ ::
      .issue ⟨0x00030021, r3.res0⟩ :: rest →
    ∃ u, Host.Core.run Sys2Proof.core 4 t = .next u ∧ u.engine = s.engine ∧
      ∀ n, SameCourse (Host.Core.run Sys2Proof.core n s) (Host.Core.run Sys2Proof.core n u) ∧
        ∀ (x y : State) (c : Command) (later : List PortEvent) (i : Instr),
          Host.Core.run Sys2Proof.core n s = .next x → Host.Core.run Sys2Proof.core n u = .next y →
          x.port = .issue c :: later → decode c = .instr i → SameResults i (step x) (step y)

/-- 41_generator_engine.md R151, 43_state_interface.md R212, 10_state.md R39: what a command returns and leaves depends
on its operands, the state words, the accumulator and the mode alone: not on the old results, the status history, or
anything an earlier command had as its ARG. -/
def Obligations.ResultsDependOnlyOnEngineAccumulatorAndMode : Prop :=
  ∀ (i : Instr) (s t : State), Twin s t → SameResults i (exec i s) (exec i t)

/-- 43_state_interface.md R214: QMIN, whole: in either mode RES0 gets 0, and nothing else but CODE changes. -/
def Obligations.QminReturnsZero : Prop :=
  EncodedAlone 0x28 (fun _ => .qmin) ∧ (∀ s : State, exec .qmin s = .next { s with res0 := 0, code := .ok })

/-- 43_state_interface.md R215: QMAX, whole: in either mode RES0 gets the greatest word, and nothing else but CODE
changes. -/
def Obligations.QmaxReturnsAllOnes : Prop :=
  EncodedAlone 0x29 (fun _ => .qmax) ∧
  (∀ s : State, exec .qmax s = .next { s with res0 := 0xFFFFFFFFFFFFFFFF, code := .ok })

/-! ### 30_encoding.md -/

/-- 30_encoding.md R82, R83, R84, R88, R89, 60_exceptions.md R232, R233: exactly which words decoding rejects, and with
which code. -/
def Obligations.DecodeRejectsExactlyTheReservedWords : Prop :=
  ∀ (w : CmdWord) (arg : Word),
    (decode ⟨w, arg⟩ = .fault .illegal ↔
      w.extractLsb' 18 14 ≠ 0 ∨
      (w.extractLsb' 0 8).toNat ∉
        [0x01, 0x02, 0x03, 0x04, 0x05, 0x06, 0x07, 0x08, 0x10, 0x11, 0x12, 0x13, 0x18, 0x20, 0x21, 0x28, 0x29] ∨
      (w.extractLsb' 0 8 ≠ 0x02 ∧ w.extractLsb' 8 8 ≠ 0) ∨
      (w.extractLsb' 0 8 ≠ 0x20 ∧ w.extractLsb' 0 8 ≠ 0x21 ∧ w.extractLsb' 16 2 ≠ 0)) ∧
    (decode ⟨w, arg⟩ = .fault .bitsRange ↔
      w.extractLsb' 18 14 = 0 ∧ w.extractLsb' 16 2 = 0 ∧ w.extractLsb' 0 8 = 0x02 ∧
      65 ≤ (w.extractLsb' 8 8).toNat)

/-- 30_encoding.md R87, R91: decoding the encoded word of a well-formed instruction gives it back, with every operand at
every value the encoding admits. -/
def Obligations.DecodeInvertsEncode : Prop :=
  ∀ i : Instr, i.wf = true → decode (encode i) = .instr i

/-- 30_encoding.md R86, R89, R91: an instruction read from a transaction is well-formed, and encoding it gives the
transaction back, with ARG 0 where the command ignores ARG. -/
def Obligations.EncodeInvertsDecode : Prop :=
  ∀ (c : Command) (i : Instr), decode c = .instr i →
    i.wf = true ∧ encode i = ⟨c.word, if i.usesArg then c.arg else 0⟩

/-- 30_encoding.md R87, spec/opcode_table.json: no word lies in two rows of the opcode table; a decoded word lies in the
row of its instruction; and a word of a row decodes to an instruction of that row, but for BITS above 64. -/
def Obligations.DecodeFollowsTheOpcodeTable : Prop :=
  opcodeTable.Pairwise (fun r q => ∀ w : CmdWord, ¬ (r.holds w = true ∧ q.holds w = true)) ∧
  (∀ (w : CmdWord) (arg : Word) (i : Instr), decode ⟨w, arg⟩ = .instr i →
    ∃ r ∈ opcodeTable, r.mnemonic = i.mnemonic ∧ r.holds w = true) ∧
  (∀ (w : CmdWord) (arg : Word), ∀ r ∈ opcodeTable, r.holds w = true →
    (∃ i, decode ⟨w, arg⟩ = .instr i ∧ i.mnemonic = r.mnemonic) ∨
    (r.mnemonic = "BITS" ∧ decode ⟨w, arg⟩ = .fault .bitsRange))

/-- 30_encoding.md R87, 95_test_vectors.md section 7: words written out from the encoding decode to their commands. -/
def Obligations.WrittenOutWordsDecode : Prop :=
  decode ⟨0x00000001, 0⟩ = .instr .next ∧
  decode ⟨0x00002002, 0⟩ = .instr (.bits 32) ∧
  decode ⟨0x00000003, 0x3E8⟩ = .instr (.u64b 1000) ∧
  decode ⟨0x00000008, 3⟩ = .instr (.discard 3) ∧
  decode ⟨0x00000010, 0x49E2⟩ = .instr (.seed 18914) ∧
  decode ⟨0x00000012, 1⟩ = .instr (.seqpush 1) ∧
  decode ⟨0x00000018, 0⟩ = .instr (.mix 0) ∧
  decode ⟨0x00020020, 0⟩ = .instr (.strd 2) ∧
  decode ⟨0x00030021, 4⟩ = .instr (.stwr 3 4) ∧
  decode ⟨0x00000029, 0⟩ = .instr .qmax ∧
  decode ⟨0x00000000, 0⟩ = .fault .illegal ∧
  decode ⟨0x00044102, 0⟩ = .fault .illegal ∧
  decode ⟨0x00014002, 0⟩ = .fault .illegal ∧
  decode ⟨0x00004102, 0⟩ = .fault .bitsRange

/-- 30_encoding.md R91, R92: the pairs the assembler emits, what it must reject, and the pseudo-instructions. `bits`, `strd`
and `stwr` are rejected for every number out of range, read as the operand list of a line. -/
def Obligations.AssemblerEmitsTheListedPairs : Prop :=
  (∀ b : BitVec 8, (AsmLine.core (.bits b)).assemble =
    if b.toNat ≤ 64 then some [⟨0x00000002 ||| (b.zeroExtend 32 <<< 8), 0⟩] else none) ∧
  (∀ mx : Word, (AsmLine.core (.u64b mx)).assemble = if mx = 0 then none else some [⟨0x00000003, mx⟩]) ∧
  ((AsmLine.core .next).assemble = some [⟨0x00000001, 0⟩] ∧ (AsmLine.core .u32).assemble = some [⟨0x00000004, 0⟩] ∧
    (AsmLine.core .u32p).assemble = some [⟨0x00000005, 0⟩] ∧ (AsmLine.core .f52).assemble = some [⟨0x00000006, 0⟩] ∧
    (AsmLine.core .f53).assemble = some [⟨0x00000007, 0⟩] ∧
    (AsmLine.core .seqbegin).assemble = some [⟨0x00000011, 0⟩] ∧
    (AsmLine.core .seqend).assemble = some [⟨0x00000013, 0⟩] ∧
    (AsmLine.core .qmin).assemble = some [⟨0x00000028, 0⟩] ∧ (AsmLine.core .qmax).assemble = some [⟨0x00000029, 0⟩]) ∧
  (∀ v : Word,
    (AsmLine.core (.discard v)).assemble = some [⟨0x00000008, v⟩] ∧
    (AsmLine.core (.seed v)).assemble = some [⟨0x00000010, v⟩] ∧
    (AsmLine.core (.seqpush v)).assemble = some [⟨0x00000012, v⟩] ∧
    (AsmLine.core (.mix v)).assemble = some [⟨0x00000018, v⟩]) ∧
  (∀ (i : Fin 4) (v : Word),
    (AsmLine.core (.strd i)).assemble = some [⟨0x00000020 ||| (BitVec.ofNat 32 i.val <<< 16), 0⟩] ∧
    (AsmLine.core (.stwr i v)).assemble = some [⟨0x00000021 ||| (BitVec.ofNat 32 i.val <<< 16), v⟩]) ∧
  (AsmLine.u64.assemble = some [⟨0x00000001, 0⟩] ∧ AsmLine.bitsRaw.assemble = some [⟨0x00000001, 0⟩] ∧
    AsmLine.seeddef.assemble = some [⟨0x00000010, 18914⟩] ∧
    AsmLine.ststate.assemble = some [⟨0x00000020, 0⟩, ⟨0x00010020, 0⟩, ⟨0x00020020, 0⟩, ⟨0x00030020, 0⟩]) ∧
  (∀ mx : Word, (AsmLine.u64Max mx).assemble = (AsmLine.core (.u64b mx)).assemble) ∧
  (∀ xs : List Word, (AsmLine.seedseq xs).assemble =
    some (⟨0x00000011, 0⟩ :: xs.map (fun x => ⟨0x00000012, x⟩) ++ [⟨0x00000013, 0⟩])) ∧
  (∀ a b c d : Word, (AsmLine.ldstate a b c d).assemble =
    some [⟨0x00000021, a⟩, ⟨0x00010021, b⟩, ⟨0x00020021, c⟩, ⟨0x00030021, d⟩]) ∧
  (∀ (w : CmdWord) (a : Word), (AsmLine.raw w a).assemble = some [⟨w, a⟩]) ∧
  (∀ n : Nat, 64 < n → formBits [n] = none) ∧
  (∀ n : Nat, n ≤ 64 → formBits [n] = some (.core (.bits (BitVec.ofNat 8 n)))) ∧
  (∀ n v : Nat, 4 ≤ n → formStrd [n] = none ∧ formStwr [n, v] = none) ∧
  (∀ (i : Fin 4) (v : Word), formStrd [i.val] = some (.core (.strd i)) ∧
    formStwr [i.val, v.toNat] = some (.core (.stwr i v)))

/-! ### 10_state.md, 60_exceptions.md, 70_reset_and_hazards.md -/

/-- 10_state.md R36, 60_exceptions.md R231: the fields of the STATUS word, the numbers of the codes, and that no other
code is ever read. -/
def Obligations.StatusWordLayout : Prop :=
  (∀ s : State,
    s.status.extractLsb' 0 4 = s.code.bits ∧ s.status.getLsbD 4 = s.seeding ∧ s.status.getLsbD 5 = s.sticky ∧
    s.status.extractLsb' 6 26 = 0 ∧ (s.status.extractLsb' 0 4).toNat ≤ 4) ∧
  (StatusCode.ok.bits = 0 ∧ StatusCode.illegal.bits = 1 ∧ StatusCode.bitsRange.bits = 2 ∧ StatusCode.domain.bits = 3 ∧
    StatusCode.seqOrder.bits = 4)

/-- 10_state.md R46: the state after reset: S as SEED 18914 leaves it, ACC invalid, STATUS 0, RES0 and RES1 0. -/
def Obligations.ResetState : Prop :=
  (∀ s : State, ∃ t, exec (.seed 18914) s = .next t ∧ State.reset.engine = t.engine) ∧
  State.reset.engine = burnIn (zeroCheck Config.cfg (mixIn Config.cfg (seedInit Config.cfg) 18914).1) ∧
  State.reset.acc = none ∧ State.reset.code = .ok ∧ State.reset.seeding = false ∧ State.reset.sticky = false ∧
  State.reset.status = 0 ∧ State.reset.res0 = 0 ∧ State.reset.res1 = 0

/-- 70_reset_and_hazards.md R262: a reset, between commands or before an issued command completes, leaves the reset state
with no effect of that command, a U64B that would never complete included. The host keeps its remaining events, which is
the model's choice (entry 9). -/
def Obligations.ResetAbandonsTheCommand : Prop :=
  ∀ (s : State) (c : Command) (rest : List PortEvent),
    (s.port = .reset :: rest → step s = .next { State.reset with port := rest }) ∧
    (s.port = .abandoned c :: rest → step s = .next { State.reset with port := rest })

/-- 10_state.md R45, 41_generator_engine.md R150: at reset ACC is valid exactly while SEEDING = 1, and the engine is not
all-zero. -/
def Obligations.ResetSatisfiesTheInvariant : Prop := State.reset.Inv ∧ State.reset.NonDegenerate

/-- 10_state.md R45: ACC is valid exactly while SEEDING = 1, in every state a step can reach from one where it is. -/
def Obligations.EveryStepKeepsTheInvariant : Prop :=
  ∀ s t : State, s.Inv → step s = .next t → t.Inv

/-- 10_state.md R31, 60_exceptions.md R239: outside an open sequence the engine is never all-zero, and only STWR can
change that: every step whose command is no STWR keeps it. -/
def Obligations.OnlyStwrCanZeroTheEngine : Prop :=
  ∀ s t : State, s.NonDegenerate →
    (∀ c rest i v, s.port = .issue c :: rest → decode c ≠ .instr (.stwr i v)) →
    step s = .next t → t.NonDegenerate

/-- 10_state.md R32, R37, R38, 60_exceptions.md R237, R238: what a command that gives a next state leaves unchanged. A
command that faults writes only CODE and STICKY. A command that succeeds leaves STICKY, and each of the state words, the
accumulator, SEEDING, RES0 and RES1 unless the rules' tables name it for the command. No command touches the host's
events. -/
def Obligations.CommandFrame : Prop :=
  ∀ (i : Instr) (s t : State), exec i s = .next t →
    t.port = s.port ∧
    (t.code ≠ .ok → t = { s with code := t.code, sticky := true }) ∧
    (t.code = .ok →
      t.sticky = s.sticky ∧
      (writesEngine i = false → t.engine = s.engine) ∧
      (writesRes0 i = false → t.res0 = s.res0) ∧
      (writesRes1 i = false → t.res1 = s.res1) ∧
      (writesSeeding i = false → t.seeding = s.seeding) ∧
      (writesSeeding i = false → (∀ x, i ≠ .seqpush x) → t.acc = s.acc))

/-- 60_exceptions.md R237, 70_reset_and_hazards.md R260: only a reset clears STICKY, and a step that faults sets it. And
only SEED, SEQBEGIN, SEQEND and a reset change SEEDING. -/
def Obligations.OnlyResetClearsSticky : Prop :=
  ∀ s t : State, step s = .next t →
    (s.sticky = true → t.sticky = false → ∃ rest, s.port = .reset :: rest ∨ ∃ c, s.port = .abandoned c :: rest) ∧
    (t.code ≠ .ok → s.port ≠ [] → t.sticky = true) ∧
    (s.seeding ≠ t.seeding →
      (∃ rest, s.port = .reset :: rest ∨ ∃ c, s.port = .abandoned c :: rest) ∨
      (∃ c rest i, s.port = .issue c :: rest ∧ decode c = .instr i ∧ writesSeeding i = true))

/-- 60_exceptions.md R234, R235, R236, R237, R238: the checks of one command in their order, each fault's whole effect,
and that a command which passes them all runs its rule and ends with CODE = OK. -/
def Obligations.ChecksRunInTheirOrder : Prop :=
  ∀ (c : Command) (s : State),
    (decode c = .fault .illegal → runCommand c s = .next { s with code := .illegal, sticky := true }) ∧
    (decode c = .fault .bitsRange → runCommand c s = .next { s with code := .bitsRange, sticky := true }) ∧
    (∀ i, decode c = .instr i → s.seeding = false → needsOpen i = true →
      runCommand c s = .next { s with code := .seqOrder, sticky := true }) ∧
    (∀ i, decode c = .instr i → s.seeding = true → needsClosed i = true →
      runCommand c s = .next { s with code := .seqOrder, sticky := true }) ∧
    (decode c = .instr (.u64b 0) → s.seeding = false →
      runCommand c s = .next { s with code := .domain, sticky := true }) ∧
    (∀ i, decode c = .instr i → modeAllows i s → i ≠ .u64b 0 →
      runCommand c s = exec i s ∧ ∀ t, exec i s = .next t → t.code = .ok ∧ t.sticky = s.sticky)

/-- 70_reset_and_hazards.md R271: every command but U64B completes, from every state of the invariant: it answers a next
state, and where its mode check passes it succeeds. -/
def Obligations.EveryOtherCommandCompletes : Prop :=
  ∀ (i : Instr) (s : State), s.Inv → i.wf = true → (∀ mx, i ≠ .u64b mx) →
    ∃ t, exec i s = .next t ∧ (modeAllows i s → t.code = .ok)

/-- 70_reset_and_hazards.md R268: STWR can make S all-zero; in the all-zero state NEXT, BITS, U32, U32P and F53 give zero and F52 gives 2^-53, all of
them and DISCARD leave S all-zero, and U64B with a bound that is no power of two diverges. -/
def Obligations.TheAllZeroStateIsAbsorbing : Prop :=
  (∀ s : State, s.seeding = false → ∃ a b c d, exec (.stwr 0 0) s = .next a ∧ exec (.stwr 1 0) a = .next b ∧
    exec (.stwr 2 0) b = .next c ∧ exec (.stwr 3 0) c = .next d ∧ d.engine = ⟨0, 0, 0, 0⟩ ∧ d.code = .ok) ∧
  (∀ s : State, s.seeding = false → s.engine = ⟨0, 0, 0, 0⟩ →
    exec .next s = .next { s with res0 := 0, code := .ok } ∧
    (∀ b : BitVec 8, b.toNat ≤ 64 → exec (.bits b) s = .next { s with res0 := 0, code := .ok }) ∧
    exec .u32 s = .next { s with res0 := 0, code := .ok } ∧
    exec .u32p s = .next { s with res0 := 0, res1 := 0, code := .ok } ∧
    exec .f53 s = .next { s with res0 := 0, code := .ok } ∧
    exec .f52 s = .next { s with res0 := 0x3CA0000000000000, code := .ok } ∧
    (∀ n : Word, exec (.discard n) s = .next { s with code := .ok }) ∧
    (∀ mx : Word, mx ≠ 0 → (¬ ∃ k, mx.toNat = 2 ^ k) → exec (.u64b mx) s = .fault .u64bDiverges))

/-- 20_memory.md R66, 60_exceptions.md R234, R237, R248: a step takes the host's next event: a command that decodes runs
as exec of it on the state without that event; one that does not is a fault of the block; with no event the block holds
all its state (entry 5); a second host is refused (R272, entry 8). And a placed word is what the next step takes: the events as a list in the state
and the numbering of a transaction as one number are the model's choices (entries 4, 12). -/
def Obligations.StepRunsTheDecodedCommand : Prop :=
  (∀ (s : State) (c : Command) (rest : List PortEvent) (i : Instr), s.port = .issue c :: rest → decode c = .instr i →
    step s = exec i { s with port := rest }) ∧
  (∀ (s : State) (c : Command) (rest : List PortEvent), s.port = .issue c :: rest →
    (decode c = .fault .illegal → step s = .next { s with port := rest, code := .illegal, sticky := true }) ∧
    (decode c = .fault .bitsRange → step s = .next { s with port := rest, code := .bitsRange, sticky := true })) ∧
  (∀ s : State, s.port = [] → step s = .next s) ∧
  (∀ (s : State) (c : Command) (rest : List PortEvent), s.port = .secondHost c :: rest →
    step s = .refused .secondHost) ∧
  (∀ (s : State) (w arg : Nat) (i : Instr), w < 2 ^ 32 → arg < 2 ^ 64 →
    decode ⟨BitVec.ofNat 32 w, BitVec.ofNat 64 arg⟩ = .instr i →
    decodeTableWord 96 (w + 2 ^ 32 * arg) = some i ∧ step (s.withFetchWord 96 (w + 2 ^ 32 * arg)) = exec i s)

/-! ### 00_scope.md: the block as a whole -/

/-- 00_scope.md R21: the block as a function of configuration, block state and command, for every configuration. An
ill-formed one is refused (R11; entry 3). From a state of the invariant a command is done, or it diverges, and it diverges
only as U64B with no acceptable draw ahead; from other states entry 7 says what stands. The observation of a run lists
RES0, RES1 and STATUS after each command that is done, and the final block state. The machine's own command is this
function at its configuration. -/
def Obligations.BlockIsAFunctionOfConfigurationStateAndCommand : Prop :=
  (∀ (c : Cfg) (b : BlockState) (cmd : Command) (cmds : List Command), c.wf = false →
    blockExec c b cmd = .refused .illFormedConfig ∧ observeRun c cmds b = ⟨[], .refused .illFormedConfig⟩) ∧
  (∀ (c : Cfg) (b : BlockState) (cmd : Command), c.wf = true → b.acc.isSome = b.seeding →
    (∃ t, blockExec c b cmd = .done t ∧ t.acc.isSome = t.seeding) ∨
    (blockExec c b cmd = .diverges ∧ b.seeding = false ∧ ∃ mx, decode cmd = .instr (.u64b mx) ∧ mx ≠ 0 ∧
      ∀ j, lo64 (product mx b.engine j) < (0 - mx) % mx)) ∧
  (∀ (c : Cfg) (b : BlockState), c.wf = true → observeRun c [] b = ⟨[], .done b⟩) ∧
  (∀ (c : Cfg) (b t : BlockState) (cmd : Command) (cmds : List Command), blockExec c b cmd = .done t →
    observeRun c (cmd :: cmds) b =
      ⟨(t.res0, t.res1, t.status) :: (observeRun c cmds t).outputs, (observeRun c cmds t).ending⟩) ∧
  (∀ (c : Cfg) (b : BlockState) (cmd : Command) (cmds : List Command), blockExec c b cmd = .diverges →
    observeRun c (cmd :: cmds) b = ⟨[], .diverges⟩) ∧
  (∀ (s : State) (cmd : Command), BlockOutcome.ofResult (runCommand cmd s) = blockExec Config.cfg s.toBlockState cmd) ∧
  (∀ (c : Cfg) (b : BlockState) (cmds : List Command), c.wf = true →
    observeEvents c cmds.length ({ toBlockState := b, port := [] : State }.issueAll cmds) = observeRun c cmds b)
end

