-- ==== Sys2Proof/Laws/Bits.lean ====
section
/-! SUPPORT. What the word operations of Machine/Bits compute, in numbers. -/

namespace Sys2Proof.Machine

@[simp] theorem mul128_toNat (a b : Word) : (mul128 a b).toNat = a.toNat * b.toNat := by
  have h : a.toNat * b.toNat < 2 ^ 128 := by
    have := Nat.mul_lt_mul'' a.isLt b.isLt
    simpa using this
  have ha : a.toNat % 2 ^ 128 = a.toNat := Nat.mod_eq_of_lt (by have := a.isLt; omega)
  have hb : b.toNat % 2 ^ 128 = b.toNat := Nat.mod_eq_of_lt (by have := b.isLt; omega)
  simp only [mul128, BitVec.toNat_mul, BitVec.truncate_eq_setWidth, BitVec.toNat_setWidth, ha, hb]
  exact Nat.mod_eq_of_lt h

@[simp] theorem hi64_toNat (m : BitVec 128) : (hi64 m).toNat = m.toNat / 2 ^ 64 := by
  have := m.isLt
  simp only [hi64, BitVec.extractLsb'_toNat, Nat.shiftRight_eq_div_pow]
  omega

@[simp] theorem lo64_toNat (m : BitVec 128) : (lo64 m).toNat = m.toNat % 2 ^ 64 := by
  simp [lo64, BitVec.extractLsb'_toNat]

theorem rotl_eq_rotateLeft (x : Word) {r : Nat} (h : r < 64) : rotl x r = x.rotateLeft r := by
  rw [BitVec.rotateLeft_eq_rotateLeftAux_of_lt h]
  rfl

theorem bitLength_le_iff {m p : Nat} : bitLength m ≤ p ↔ m < 2 ^ p := by
  unfold bitLength
  split
  · subst_vars; simp
  · rename_i h
    rw [Nat.succ_le_iff, Nat.log2_lt h]

theorem lt_two_pow_bitLength (m : Nat) : m < 2 ^ bitLength m := bitLength_le_iff.mp (Nat.le_refl _)

theorem two_pow_le_of_bitLength {m p : Nat} (h : bitLength m = p + 1) : 2 ^ p ≤ m := by
  by_contra hlt
  have := bitLength_le_iff.mpr (Nat.lt_of_not_le hlt)
  omega

theorem bitLength_pos {m : Nat} (h : m ≠ 0) : 0 < bitLength m := by simp [bitLength, h]

end Sys2Proof.Machine
end

