-- ==== Sys2Proof/Laws/Config.lean ====
section
/-! SUPPORT. The coordinates of Config name well-formed configurations, all of them and no others, so the machine's free
configuration is any well-formed one (00_scope.md R10, R11). -/

namespace Sys2Proof

/-- 00_scope.md R11 as a proposition. -/
theorem Cfg.wf_iff (c : Cfg) :
    c.wf = true ↔
      (1 ≤ c.mixR1 ∧ c.mixR1 ≤ 63) ∧ (1 ≤ c.mixR2 ∧ c.mixR2 ≤ 63) ∧ (1 ≤ c.mixR3 ∧ c.mixR3 ≤ 63) ∧
      c.mixM1.toNat % 2 = 1 ∧ c.mixM2.toNat % 2 = 1 ∧ c.mixM1 ≠ c.mixM2 ∧ c.zeroFallback ≠ 0 := by
  simp [Cfg.wf, and_assoc]

theorem Cfg.ofCoords_wf (k : CfgCoords) : (Cfg.ofCoords k).wf = true := by
  have h1 := k.r1.isLt
  have h2 := k.r2.isLt
  have h3 := k.r3.isLt
  have hm := k.m1Half.isLt
  have hg := k.m2Gap.isLt
  have hz := k.zeroFallbackPred.isLt
  rw [Cfg.wf_iff]
  simp only [Cfg.ofCoords]
  refine ⟨by omega, by omega, by omega, ?_, ?_, ?_, ?_⟩
  · simp only [BitVec.toNat_ofNat]; omega
  · simp only [BitVec.toNat_add, BitVec.toNat_ofNat]; omega
  · intro h
    have := congrArg BitVec.toNat h
    simp only [BitVec.toNat_add, BitVec.toNat_ofNat] at this
    omega
  · intro h
    have := congrArg BitVec.toNat h
    simp only [BitVec.toNat_ofNat, show (0 : Word).toNat = 0 from rfl] at this
    omega

/-- Every well-formed configuration has coordinates: none is excluded by the way the free values are laid out. -/
theorem Cfg.exists_coords {c : Cfg} (h : c.wf = true) : ∃ k, Cfg.ofCoords k = c := by
  rw [Cfg.wf_iff] at h
  obtain ⟨h1, h2, h3, o1, o2, hne, hz⟩ := h
  have hne' : c.mixM1.toNat ≠ c.mixM2.toNat := fun e => hne (BitVec.eq_of_toNat_eq e)
  have hz' : c.zeroFallback.toNat ≠ 0 := fun e => hz (BitVec.eq_of_toNat_eq (by simpa using e))
  have b1 := c.mixM1.isLt
  have b2 := c.mixM2.isLt
  have bz := c.zeroFallback.isLt
  refine ⟨{ r1 := ⟨c.mixR1 - 1, by omega⟩, r2 := ⟨c.mixR2 - 1, by omega⟩, r3 := ⟨c.mixR3 - 1, by omega⟩,
            m1Half := BitVec.ofNat 63 (c.mixM1.toNat / 2),
            m2Gap := ⟨((2 ^ 64 + c.mixM2.toNat - c.mixM1.toNat) % 2 ^ 64) / 2 - 1, by omega⟩,
            init0 := c.init0, init1 := c.init1, init2 := c.init2, init3 := c.init3,
            zeroFallbackPred := ⟨c.zeroFallback.toNat - 1, by omega⟩,
            accInit := c.accInit, seedLoad := c.seedLoad }, ?_⟩
  obtain ⟨r1, m1, r2, m2, r3, i0, i1, i2, i3, z, a, l⟩ := c
  simp only at h1 h2 h3 o1 o2 hne' hz' b1 b2 bz
  simp only [Cfg.ofCoords, Cfg.mk.injEq, true_and, and_true]
  refine ⟨by omega, ?_, by omega, ?_, by omega, ?_⟩
  · apply BitVec.eq_of_toNat_eq; simp only [BitVec.toNat_ofNat]; omega
  · apply BitVec.eq_of_toNat_eq; simp only [BitVec.toNat_ofNat, BitVec.toNat_add]; omega
  · apply BitVec.eq_of_toNat_eq; simp only [BitVec.toNat_ofNat]; omega

/-- The machine's configuration is well-formed (70_reset_and_hazards.md R264). -/
theorem Config.cfg_wf : Config.cfg.wf = true := Cfg.ofCoords_wf _

end Sys2Proof
end

