-- ==== Sys2Proof/Laws/Block.lean ====
section
/-! SUPPORT. The machine of the free configuration is one of the machines of Machine/Block.lean, and a
command does not read the host's events. -/

namespace Sys2Proof.Machine

theorem execWith_cfg (i : Instr) (s : State) : execWith Config.cfg i s = exec i s := by cases i <;> rfl

theorem stepWith_cfg (s : State) : stepWith Config.cfg s = step s := by
  rw [stepWith, if_pos Config.cfg_wf, funext fun i => funext (execWith_cfg i)]
  rfl

theorem coreWith_cfg : coreWith Config.cfg = core := by
  rw [coreWith, core, funext stepWith_cfg]
  rfl

/-- For the block, the outcome of a command does not depend on the host's events. -/
theorem ofResult_execWith_port (c : Cfg) (i : Instr) (b : BlockState) (p q : List PortEvent) :
    BlockOutcome.ofResult (execWith c i { toBlockState := b, port := p }) =
      BlockOutcome.ofResult (execWith c i { toBlockState := b, port := q }) := by
  cases i <;>
  simp only [execWith, execNext, execBits, execU64b, execU32, execU32p, execF52, execF53, execDiscard, seedWith,
    seqbeginWith, seqpushWith, seqendWith, mixWith, execStrd, execStwr, execQmin, execQmax, sample, outsideSeeding,
    insideSeeding] <;>
  (repeat' split) <;> rfl

/-- The same of a command word. -/
theorem ofResult_runCommandBy_port (c : Cfg) (cmd : Command) (b : BlockState) (p q : List PortEvent) :
    BlockOutcome.ofResult (runCommandBy (execWith c) cmd { toBlockState := b, port := p }) =
      BlockOutcome.ofResult (runCommandBy (execWith c) cmd { toBlockState := b, port := q }) := by
  unfold runCommandBy
  split
  · rfl
  · exact ofResult_execWith_port c _ b p q

end Sys2Proof.Machine
end

