-- ==== Sys2Proof/Laws/Engine.lean ====
section
/-! SUPPORT. The closed form of the step, the arithmetic of repeated steps, and the all-zero state. -/

namespace Sys2Proof.Machine.Engine

@[simp] theorem advance_s0 (e : Engine) : e.advance.s0 = e.s0 ^^^ (e.s3 ^^^ e.s1) := rfl
@[simp] theorem advance_s1 (e : Engine) : e.advance.s1 = e.s1 ^^^ (e.s2 ^^^ e.s0) := rfl
@[simp] theorem advance_s2 (e : Engine) : e.advance.s2 = (e.s2 ^^^ e.s0) ^^^ (e.s1 <<< 17) := rfl
@[simp] theorem advance_s3 (e : Engine) : e.advance.s3 = rotl (e.s3 ^^^ e.s1) 45 := rfl

theorem output_eq (e : Engine) : e.output = scramble e.s1 := rfl

@[simp] theorem steps_zero (e : Engine) : e.steps 0 = e := rfl
theorem steps_succ (n : Nat) (e : Engine) : e.steps (n + 1) = e.advance.steps n := rfl

theorem steps_add (m n : Nat) (e : Engine) : e.steps (m + n) = (e.steps m).steps n := by
  induction m generalizing e with
  | zero => simp
  | succ m ih => rw [Nat.add_right_comm, steps_succ, steps_succ, ih]

theorem steps_succ_last (n : Nat) (e : Engine) : e.steps (n + 1) = (e.steps n).advance := steps_add n 1 e

theorem steps_of_fixed {e : Engine} (h : e.advance = e) (n : Nat) : e.steps n = e := by
  induction n with
  | zero => rfl
  | succ n ih => rw [steps_succ, h, ih]

@[simp] theorem advance_zero : zero.advance = zero := by decide
@[simp] theorem output_zero : zero.output = 0 := by decide
@[simp] theorem steps_of_zero (n : Nat) : zero.steps n = zero := steps_of_fixed advance_zero n

@[simp] theorem get_0 (e : Engine) : e.get 0 = e.s0 := rfl
@[simp] theorem get_1 (e : Engine) : e.get 1 = e.s1 := rfl
@[simp] theorem get_2 (e : Engine) : e.get 2 = e.s2 := rfl
@[simp] theorem get_3 (e : Engine) : e.get 3 = e.s3 := rfl
@[simp] theorem set_0 (e : Engine) (v : Word) : e.set 0 v = ⟨v, e.s1, e.s2, e.s3⟩ := rfl
@[simp] theorem set_1 (e : Engine) (v : Word) : e.set 1 v = ⟨e.s0, v, e.s2, e.s3⟩ := rfl
@[simp] theorem set_2 (e : Engine) (v : Word) : e.set 2 v = ⟨e.s0, e.s1, v, e.s3⟩ := rfl
@[simp] theorem set_3 (e : Engine) (v : Word) : e.set 3 v = ⟨e.s0, e.s1, e.s2, v⟩ := rfl

@[simp] theorem get_set_same (e : Engine) (i : Fin 4) (v : Word) : (e.set i v).get i = v := by
  fin_cases i <;> rfl

theorem get_set_other (e : Engine) {i j : Fin 4} (v : Word) (h : j ≠ i) : (e.set i v).get j = e.get j := by
  fin_cases i <;> fin_cases j <;> first | rfl | exact absurd rfl h

theorem rotl_zero_iff {x : Word} : rotl x 45 = 0 ↔ x = 0 := by
  constructor
  · intro h
    ext i hi
    have hb := fun j => congrArg (fun w : Word => w.getLsbD j) h
    by_cases hlt : i < 19
    · have := hb (i + 45)
      simp [rotl, show i + 45 < 64 by omega] at this
      simpa [BitVec.getLsbD_eq_getElem hi] using this.1
    · have := hb (i - 19)
      simp [rotl, show i - 19 < 64 by omega, show i - 19 < 45 by omega] at this
      rw [show 19 + (i - 19) = i by omega] at this
      simpa [BitVec.getLsbD_eq_getElem hi] using this
  · rintro rfl; decide

/-- The state map sends no other state to the all-zero state (41_generator_engine.md R134). -/
theorem advance_eq_zero_iff {e : Engine} : e.advance = zero ↔ e = zero := by
  constructor
  · intro h
    have h0 : e.s0 ^^^ (e.s3 ^^^ e.s1) = 0 := congrArg Engine.s0 h
    have h1 : e.s1 ^^^ (e.s2 ^^^ e.s0) = 0 := congrArg Engine.s1 h
    have h2 : (e.s2 ^^^ e.s0) ^^^ (e.s1 <<< 17) = 0 := congrArg Engine.s2 h
    have h3 : e.s3 ^^^ e.s1 = 0 := rotl_zero_iff.mp (congrArg Engine.s3 h)
    have e0 : e.s0 = 0 := by simpa [h3] using h0
    have e21 : e.s2 = e.s1 := by
      have : e.s1 ^^^ e.s2 = 0 := by simpa [e0] using h1
      exact (BitVec.xor_eq_zero_iff.mp this).symm
    have hs : e.s1 = e.s1 <<< 17 := BitVec.xor_eq_zero_iff.mp (by simpa [e0, e21] using h2)
    have e1 : e.s1 = 0 := by
      have h34 : e.s1 = e.s1 <<< 34 := by
        conv_lhs => rw [hs, hs, ← BitVec.shiftLeft_add]
      have h68 : e.s1 = e.s1 <<< 68 := by
        conv_lhs => rw [h34, h34, ← BitVec.shiftLeft_add]
      rw [h68]; exact BitVec.shiftLeft_eq_zero (by omega)
    have e3 : e.s3 = 0 := by rw [BitVec.xor_eq_zero_iff.mp h3, e1]
    cases e
    simp only [zero, Engine.mk.injEq]
    exact ⟨e0, e1, e21.trans e1, e3⟩
  · rintro rfl; exact advance_zero

theorem steps_eq_zero_iff (n : Nat) {e : Engine} : e.steps n = zero ↔ e = zero := by
  induction n generalizing e with
  | zero => rfl
  | succ n ih => rw [steps_succ, ih, advance_eq_zero_iff]

end Sys2Proof.Machine.Engine
end

