-- ==== Sys2Proof/Laws/State.lean ====
section
/-! SUPPORT. One lemma per field per update of the block state, so that no proof unfolds a record update. The proofs are
written `(rfl)` so that simp rewrites with them: as definitional steps they would have the kernel compare whole states. -/

namespace Sys2Proof.Machine.State

variable (s : State)

@[simp] theorem withEngine_engine (e : Engine) : (s.withEngine e).engine = e := (rfl)
@[simp] theorem withEngine_acc (e : Engine) : (s.withEngine e).acc = s.acc := (rfl)
@[simp] theorem withEngine_code (e : Engine) : (s.withEngine e).code = s.code := (rfl)
@[simp] theorem withEngine_seeding (e : Engine) : (s.withEngine e).seeding = s.seeding := (rfl)
@[simp] theorem withEngine_sticky (e : Engine) : (s.withEngine e).sticky = s.sticky := (rfl)
@[simp] theorem withEngine_res0 (e : Engine) : (s.withEngine e).res0 = s.res0 := (rfl)
@[simp] theorem withEngine_res1 (e : Engine) : (s.withEngine e).res1 = s.res1 := (rfl)
@[simp] theorem withEngine_port (e : Engine) : (s.withEngine e).port = s.port := (rfl)

@[simp] theorem withAcc_engine (a : Option Word) : (s.withAcc a).engine = s.engine := (rfl)
@[simp] theorem withAcc_acc (a : Option Word) : (s.withAcc a).acc = a := (rfl)
@[simp] theorem withAcc_code (a : Option Word) : (s.withAcc a).code = s.code := (rfl)
@[simp] theorem withAcc_seeding (a : Option Word) : (s.withAcc a).seeding = s.seeding := (rfl)
@[simp] theorem withAcc_sticky (a : Option Word) : (s.withAcc a).sticky = s.sticky := (rfl)
@[simp] theorem withAcc_res0 (a : Option Word) : (s.withAcc a).res0 = s.res0 := (rfl)
@[simp] theorem withAcc_res1 (a : Option Word) : (s.withAcc a).res1 = s.res1 := (rfl)
@[simp] theorem withAcc_port (a : Option Word) : (s.withAcc a).port = s.port := (rfl)

@[simp] theorem withSeeding_engine (b : Bool) : (s.withSeeding b).engine = s.engine := (rfl)
@[simp] theorem withSeeding_acc (b : Bool) : (s.withSeeding b).acc = s.acc := (rfl)
@[simp] theorem withSeeding_code (b : Bool) : (s.withSeeding b).code = s.code := (rfl)
@[simp] theorem withSeeding_seeding (b : Bool) : (s.withSeeding b).seeding = b := (rfl)
@[simp] theorem withSeeding_sticky (b : Bool) : (s.withSeeding b).sticky = s.sticky := (rfl)
@[simp] theorem withSeeding_res0 (b : Bool) : (s.withSeeding b).res0 = s.res0 := (rfl)
@[simp] theorem withSeeding_res1 (b : Bool) : (s.withSeeding b).res1 = s.res1 := (rfl)
@[simp] theorem withSeeding_port (b : Bool) : (s.withSeeding b).port = s.port := (rfl)

@[simp] theorem withRes0_engine (v : Word) : (s.withRes0 v).engine = s.engine := (rfl)
@[simp] theorem withRes0_acc (v : Word) : (s.withRes0 v).acc = s.acc := (rfl)
@[simp] theorem withRes0_code (v : Word) : (s.withRes0 v).code = s.code := (rfl)
@[simp] theorem withRes0_seeding (v : Word) : (s.withRes0 v).seeding = s.seeding := (rfl)
@[simp] theorem withRes0_sticky (v : Word) : (s.withRes0 v).sticky = s.sticky := (rfl)
@[simp] theorem withRes0_res0 (v : Word) : (s.withRes0 v).res0 = v := (rfl)
@[simp] theorem withRes0_res1 (v : Word) : (s.withRes0 v).res1 = s.res1 := (rfl)
@[simp] theorem withRes0_port (v : Word) : (s.withRes0 v).port = s.port := (rfl)

@[simp] theorem withRes1_engine (v : Word) : (s.withRes1 v).engine = s.engine := (rfl)
@[simp] theorem withRes1_acc (v : Word) : (s.withRes1 v).acc = s.acc := (rfl)
@[simp] theorem withRes1_code (v : Word) : (s.withRes1 v).code = s.code := (rfl)
@[simp] theorem withRes1_seeding (v : Word) : (s.withRes1 v).seeding = s.seeding := (rfl)
@[simp] theorem withRes1_sticky (v : Word) : (s.withRes1 v).sticky = s.sticky := (rfl)
@[simp] theorem withRes1_res0 (v : Word) : (s.withRes1 v).res0 = s.res0 := (rfl)
@[simp] theorem withRes1_res1 (v : Word) : (s.withRes1 v).res1 = v := (rfl)
@[simp] theorem withRes1_port (v : Word) : (s.withRes1 v).port = s.port := (rfl)

@[simp] theorem takeFault_engine (c : StatusCode) : (s.takeFault c).engine = s.engine := (rfl)
@[simp] theorem takeFault_acc (c : StatusCode) : (s.takeFault c).acc = s.acc := (rfl)
@[simp] theorem takeFault_code (c : StatusCode) : (s.takeFault c).code = c := (rfl)
@[simp] theorem takeFault_seeding (c : StatusCode) : (s.takeFault c).seeding = s.seeding := (rfl)
@[simp] theorem takeFault_sticky (c : StatusCode) : (s.takeFault c).sticky = true := (rfl)
@[simp] theorem takeFault_res0 (c : StatusCode) : (s.takeFault c).res0 = s.res0 := (rfl)
@[simp] theorem takeFault_res1 (c : StatusCode) : (s.takeFault c).res1 = s.res1 := (rfl)
@[simp] theorem takeFault_port (c : StatusCode) : (s.takeFault c).port = s.port := (rfl)

@[simp] theorem complete_engine : s.complete.engine = s.engine := (rfl)
@[simp] theorem complete_acc : s.complete.acc = s.acc := (rfl)
@[simp] theorem complete_code : s.complete.code = .ok := (rfl)
@[simp] theorem complete_seeding : s.complete.seeding = s.seeding := (rfl)
@[simp] theorem complete_sticky : s.complete.sticky = s.sticky := (rfl)
@[simp] theorem complete_res0 : s.complete.res0 = s.res0 := (rfl)
@[simp] theorem complete_res1 : s.complete.res1 = s.res1 := (rfl)
@[simp] theorem complete_port : s.complete.port = s.port := (rfl)

@[simp] theorem draw_fst : s.draw.1 = s.engine.output := (rfl)
@[simp] theorem draw_snd : s.draw.2 = s.withEngine s.engine.advance := (rfl)

end Sys2Proof.Machine.State
end

