-- ==== Sys2Proof/Laws/Ops.lean ====
section
/-! SUPPORT. What the shared operations can answer, each said once: the mode checks, a completed command, a faulted
command, a sampling command, and one command word at the port. -/

namespace Sys2Proof.Machine

theorem done_eq_next {s t : State} : done s = .next t ↔ t = s.complete := by
  simp [done, eq_comm]

theorem faulted_eq_next {s t : State} {c : StatusCode} : faulted s c = .next t ↔ t = s.takeFault c := by
  simp [faulted, eq_comm]

theorem outsideSeeding_of_closed {s : State} (h : s.seeding = false) (r : Result) : outsideSeeding s r = r := by
  simp [outsideSeeding, h]

theorem outsideSeeding_of_open {s : State} (h : s.seeding = true) (r : Result) :
    outsideSeeding s r = .next (s.takeFault .seqOrder) := by
  simp [outsideSeeding, h, faulted]

theorem insideSeeding_of_open {s : State} (h : s.seeding = true) (r : Result) : insideSeeding s r = r := by
  simp [insideSeeding, h]

theorem insideSeeding_of_closed {s : State} (h : s.seeding = false) (r : Result) :
    insideSeeding s r = .next (s.takeFault .seqOrder) := by
  simp [insideSeeding, h, faulted]

theorem outsideSeeding_eq_next {s t : State} {r : Result} :
    outsideSeeding s r = .next t ↔
      (s.seeding = true ∧ t = s.takeFault .seqOrder) ∨ (s.seeding = false ∧ r = .next t) := by
  cases h : s.seeding <;> simp [outsideSeeding, h, faulted, eq_comm]

theorem insideSeeding_eq_next {s t : State} {r : Result} :
    insideSeeding s r = .next t ↔
      (s.seeding = false ∧ t = s.takeFault .seqOrder) ∨ (s.seeding = true ∧ r = .next t) := by
  cases h : s.seeding <;> simp [insideSeeding, h, faulted, eq_comm]

theorem outsideSeeding_open_eq {s : State} (h : s.seeding = true) (r : Result) :
    outsideSeeding s r = .next { s with code := .seqOrder, sticky := true } := outsideSeeding_of_open h r

theorem insideSeeding_closed_eq {s : State} (h : s.seeding = false) (r : Result) :
    insideSeeding s r = .next { s with code := .seqOrder, sticky := true } := insideSeeding_of_closed h r

theorem done_withRes0 (s : State) (v : Word) : done (s.withRes0 v) = .next { s with res0 := v, code := .ok } := rfl

theorem done_withEngine (s : State) (e : Engine) :
    done (s.withEngine e) = .next { s with engine := e, code := .ok } := rfl

theorem done_withEngine_withRes0 (s : State) (e : Engine) (v : Word) :
    done ((s.withEngine e).withRes0 v) = .next { s with engine := e, res0 := v, code := .ok } := rfl

theorem done_withRes0_withRes1 (s : State) (v w : Word) :
    done ((s.withRes0 v).withRes1 w) = .next { s with res0 := v, res1 := w, code := .ok } := rfl

theorem done_withEngine_withAcc (s : State) (e : Engine) (a : Option Word) :
    done ((s.withEngine e).withAcc a) = .next { s with engine := e, acc := a, code := .ok } := rfl

theorem done_seeding (s : State) (e : Engine) (a : Option Word) (b : Bool) :
    done (((s.withEngine e).withAcc a).withSeeding b) =
      .next { s with engine := e, acc := a, seeding := b, code := .ok } := rfl

theorem done_pair (s : State) (e : Engine) (v w : Word) :
    done (((s.withEngine e).withRes0 v).withRes1 w) =
      .next { s with engine := e, res0 := v, res1 := w, code := .ok } := rfl

theorem sample_of_closed {s : State} (h : s.seeding = false) (f : Word → Word) :
    sample f s = .next { s with engine := s.engine.advance, res0 := f s.engine.output, code := .ok } := by
  rw [sample, outsideSeeding_of_closed h]
  exact done_withEngine_withRes0 s s.engine.advance (f s.engine.output)

theorem sample_of_open {s : State} (h : s.seeding = true) (f : Word → Word) :
    sample f s = .next { s with code := .seqOrder, sticky := true } := outsideSeeding_open_eq h _

/-- One command word at the port: a decode fault, or the decoded command (60_exceptions.md R234). -/
theorem runCommand_cases (c : Command) (s : State) :
    (∃ f, decode c = .fault f ∧ runCommand c s = .next (s.takeFault (faultCode f))) ∨
    (∃ i, decode c = .instr i ∧ runCommand c s = exec i s) := by
  unfold runCommand runCommandBy
  cases h : decode c with
  | fault f => exact .inl ⟨f, rfl, rfl⟩
  | instr i => exact .inr ⟨i, rfl, rfl⟩

/-- Everything a step can do (20_memory.md R66). -/
theorem step_cases {s t : State} (h : step s = .next t) :
    (s.port = [] ∧ t = s) ∨
    (∃ c rest, s.port = .issue c :: rest ∧ runCommand c { s with port := rest } = .next t) ∨
    (∃ rest, (s.port = .reset :: rest ∨ ∃ c, s.port = .abandoned c :: rest) ∧
      t = { State.reset with port := rest }) := by
  unfold step acceptEvent acceptEventBy at h
  split at h
  · exact .inl ⟨‹_›, by simpa [eq_comm] using h⟩
  · exact .inr (.inl ⟨_, _, ‹_›, h⟩)
  · exact .inr (.inr ⟨_, .inl ‹_›, by simpa [eq_comm] using h⟩)
  · exact .inr (.inr ⟨_, .inr ⟨_, ‹_›⟩, by simpa [eq_comm] using h⟩)
  · simp at h

end Sys2Proof.Machine
end

