-- ==== Sys2Proof/Laws/Seeding.lean ====
section
/-! SUPPORT. The mixer's new accumulator, the four additions of MixIn written out, and what the closing phases of
seeding leave. -/

namespace Sys2Proof.Machine

@[simp] theorem mix_fst (c : Cfg) (acc : Word) : (mix c acc).1 = mixRounds c (nextAcc acc) := rfl
@[simp] theorem mix_snd (c : Cfg) (acc : Word) : (mix c acc).2 = nextAcc acc := rfl

theorem addMixed_0 (c : Cfg) (s0 s1 s2 s3 a : Word) :
    addMixed c (⟨s0, s1, s2, s3⟩, a) 0 = (⟨s0 + mixRounds c (nextAcc a), s1, s2, s3⟩, nextAcc a) := rfl

theorem addMixed_1 (c : Cfg) (s0 s1 s2 s3 a : Word) :
    addMixed c (⟨s0, s1, s2, s3⟩, a) 1 = (⟨s0, s1 + mixRounds c (nextAcc a), s2, s3⟩, nextAcc a) := rfl

theorem addMixed_2 (c : Cfg) (s0 s1 s2 s3 a : Word) :
    addMixed c (⟨s0, s1, s2, s3⟩, a) 2 = (⟨s0, s1, s2 + mixRounds c (nextAcc a), s3⟩, nextAcc a) := rfl

theorem addMixed_3 (c : Cfg) (s0 s1 s2 s3 a : Word) :
    addMixed c (⟨s0, s1, s2, s3⟩, a) 3 = (⟨s0, s1, s2, s3 + mixRounds c (nextAcc a)⟩, nextAcc a) := rfl

theorem mixIn_unfold (c : Cfg) (p : Engine × Word) (x : Word) :
    mixIn c p x =
      addMixed c (addMixed c (addMixed c (addMixed c (p.1, c.seedLoad p.2 x) 0) 1) 2) 3 := rfl

/-- MixIn written out: four threaded mixer outputs, added in index order (41_generator_engine.md R142). -/
theorem mixIn_eq (c : Cfg) (s0 s1 s2 s3 acc x : Word) :
    mixIn c (⟨s0, s1, s2, s3⟩, acc) x =
      (⟨s0 + mixRounds c (nextAcc (c.seedLoad acc x)),
        s1 + mixRounds c (nextAcc (nextAcc (c.seedLoad acc x))),
        s2 + mixRounds c (nextAcc (nextAcc (nextAcc (c.seedLoad acc x)))),
        s3 + mixRounds c (nextAcc (nextAcc (nextAcc (nextAcc (c.seedLoad acc x)))))⟩,
       nextAcc (nextAcc (nextAcc (nextAcc (c.seedLoad acc x))))) := by
  rw [mixIn_unfold, addMixed_0, addMixed_1, addMixed_2, addMixed_3]

/-- ZeroCheck replaces the all-zero state and no other (41_generator_engine.md R143). -/
theorem zeroCheck_eq (c : Cfg) (e : Engine) :
    zeroCheck c e = if e = Engine.zero then ⟨0, c.zeroFallback, 0, 0⟩ else e := by
  cases e
  simp only [zeroCheck, Engine.zero, Engine.mk.injEq]
  split
  · rename_i h
    obtain ⟨rfl, rfl, rfl, rfl⟩ := h
    rfl
  · rfl

theorem zeroCheck_ne_zero {c : Cfg} (h : c.wf = true) (e : Engine) : zeroCheck c e ≠ Engine.zero := by
  rw [zeroCheck_eq]
  split
  · intro he
    exact (Cfg.wf_iff c |>.mp h).2.2.2.2.2.2 (congrArg Engine.s1 he)
  · assumption

/-- The closing phases of seeding leave a state that is not all-zero (41_generator_engine.md R150). -/
theorem finishSeeding_ne_zero {c : Cfg} (h : c.wf = true) (e : Engine) : finishSeeding c e ≠ Engine.zero :=
  fun he => zeroCheck_ne_zero h e ((Engine.steps_eq_zero_iff _).mp he)

end Sys2Proof.Machine
end

