-- ==== Sys2Proof/Laws/Transforms.lean ====
section
/-! SUPPORT. What the rejection loop of U64B does, once: it ends at the first accepted draw, and it fails to end exactly
when no draw is ever accepted. The bound of 2^256 draws in its definition excludes nothing (entry 6). -/

namespace Sys2Proof.Machine

/-- Whether the draw after `j` steps is rejected for the bound `mx`: its low half is below the threshold
(42_sampling.md R173, R174). -/
def Rejected (mx : Word) (e : Engine) (j : Nat) : Prop := lo64 (mul128 (e.steps j).output mx) < threshold mx

theorem threshold_lt {mx : Word} (h : mx ≠ 0) : threshold mx < mx := by
  have : 0 < mx.toNat := Nat.pos_of_ne_zero (fun e => h (BitVec.eq_of_toNat_eq (by simpa using e)))
  rw [BitVec.lt_def, threshold, BitVec.toNat_umod]
  exact Nat.mod_lt _ this

/-- The number of engine states bounds any list of different states on one orbit. -/
theorem orbit_le {e : Engine} {k : Nat} (h : ∀ i j, i < j → j ≤ k → e.steps i ≠ e.steps j) : k < drawBound := by
  let f : Fin (k + 1) → Fin (2 ^ 64) × Fin (2 ^ 64) × Fin (2 ^ 64) × Fin (2 ^ 64) := fun i =>
    ((e.steps i).s0.toFin, (e.steps i).s1.toFin, (e.steps i).s2.toFin, (e.steps i).s3.toFin)
  have hf : Function.Injective f := by
    intro i j hij
    simp only [f, Prod.mk.injEq, BitVec.toFin_inj] at hij
    have he : e.steps i = e.steps j := by
      cases h1 : e.steps i; cases h2 : e.steps j
      simp_all
    rcases Nat.lt_trichotomy i.val j.val with hlt | heq | hlt
    · exact absurd he (h _ _ hlt (by omega))
    · exact Fin.ext heq
    · exact absurd he.symm (h _ _ hlt (by omega))
  have := Fintype.card_le_of_injective f hf
  simp only [Fintype.card_fin, Fintype.card_prod] at this
  unfold drawBound
  omega

theorem rejectLoop_of_accepted {mx t : Word} (n : Nat) :
    ∀ (k : Nat) (m : BitVec 128) (e : Engine), k ≤ n →
      (∀ j < k, lo64 (match j with | 0 => m | j + 1 => mul128 (e.steps j).output mx) < t) →
      ¬ lo64 (match k with | 0 => m | j + 1 => mul128 (e.steps j).output mx) < t →
      rejectLoop mx t n m e =
        some (hi64 (match k with | 0 => m | j + 1 => mul128 (e.steps j).output mx), e.steps k) := by
  induction n with
  | zero =>
    intro k m e hk _ hacc
    obtain rfl : k = 0 := by omega
    simp only at hacc
    simp [rejectLoop, hacc]
  | succ n ih =>
    intro k m e hk hrej hacc
    cases k with
    | zero => simp only at hacc; simp [rejectLoop, hacc]
    | succ k =>
      have h0 : lo64 m < t := hrej 0 (by omega)
      have hfix : ¬ (lo64 (mul128 e.output mx) < t ∧ e.advance = e) := by
        rintro ⟨hr, hf⟩
        simp only [Engine.steps_of_fixed hf] at hacc
        exact hacc hr
      have := ih k (mul128 e.output mx) e.advance (by omega)
        (by
          intro j hj
          have := hrej (j + 1) (by omega)
          cases j <;> simpa [Engine.steps_succ] using this)
        (by cases k <;> simpa [Engine.steps_succ] using hacc)
      simp only [rejectLoop, h0, hfix, if_true, if_false, this]
      cases k <;> simp [Engine.steps_succ]

theorem rejectLoop_of_rejected {mx t : Word} (n : Nat) :
    ∀ (m : BitVec 128) (e : Engine), lo64 m < t → (∀ j, lo64 (mul128 (e.steps j).output mx) < t) →
      rejectLoop mx t n m e = none := by
  induction n with
  | zero => intro m e hm _; simp [rejectLoop, hm]
  | succ n ih =>
    intro m e hm hall
    have := ih (mul128 e.output mx) e.advance (hall 0) (fun j => hall (j + 1))
    simp only [rejectLoop, hm, this, if_true, ite_self]

/-- U64B's draws end at the first draw that is not rejected (42_sampling.md R173, R176). -/
theorem boundedDraw_of_accepted {mx : Word} (hmx : mx ≠ 0) {e : Engine} {k : Nat} (hrej : ∀ j < k, Rejected mx e j)
    (hacc : ¬ Rejected mx e k) :
    boundedDraw mx e = some (hi64 (mul128 (e.steps k).output mx), e.steps (k + 1)) := by
  have hdist : ∀ i j, i < j → j ≤ k → e.steps i ≠ e.steps j := by
    intro i j hij hjk heq
    have : e.steps (i + (k - j)) = e.steps k := by
      rw [Engine.steps_add, heq, ← Engine.steps_add]; congr 1; omega
    exact hacc (by
      have := hrej (i + (k - j)) (by omega)
      rwa [Rejected, ‹e.steps (i + (k - j)) = e.steps k›] at this)
  have hk := orbit_le hdist
  have ht := threshold_lt hmx
  have hsteps : e.advance.steps k = e.steps (k + 1) := rfl
  simp only [boundedDraw]
  split
  · rename_i hlow
    rw [← hsteps]
    have := rejectLoop_of_accepted (mx := mx) (t := threshold mx) drawBound k (mul128 e.output mx) e.advance
      (by omega)
      (by
        intro j hj
        have := hrej j hj
        cases j <;> simpa [Rejected, Engine.steps_succ] using this)
      (by cases k <;> simpa [Rejected, Engine.steps_succ] using hacc)
    rw [this]
    cases k <;> rfl
  · rename_i hlow
    cases k with
    | zero => rfl
    | succ k =>
      exact absurd (BitVec.lt_trans (hrej 0 (by omega)) ht) hlow

/-- U64B's draws never end when every draw is rejected (42_sampling.md R177). -/
theorem boundedDraw_of_rejected {mx : Word} (hmx : mx ≠ 0) {e : Engine} (h : ∀ j, Rejected mx e j) :
    boundedDraw mx e = none := by
  have ht := threshold_lt hmx
  have h0 : lo64 (mul128 e.output mx) < mx := BitVec.lt_trans (h 0) ht
  simp only [boundedDraw, h0, if_true]
  exact rejectLoop_of_rejected _ _ _ (h 0) (fun j => h (j + 1))

/-- Either some draw is the first one accepted, or none ever is. -/
theorem first_accepted_or_all_rejected (mx : Word) (e : Engine) :
    (∃ k, (∀ j < k, Rejected mx e j) ∧ ¬ Rejected mx e k) ∨ ∀ j, Rejected mx e j := by
  classical
  by_cases h : ∃ k, ¬ Rejected mx e k
  · left
    exact ⟨Nat.find h, fun j hj => by simpa using Nat.find_min h hj, Nat.find_spec h⟩
  · right
    simpa using h

/-- A bounded draw that completes leaves a state that some number of steps reaches. -/
theorem boundedDraw_steps {mx r : Word} {e e' : Engine} (hmx : mx ≠ 0) (h : boundedDraw mx e = some (r, e')) :
    ∃ n, e' = e.steps n := by
  obtain ⟨k, hrej, hacc⟩ | hall := first_accepted_or_all_rejected mx e
  · rw [boundedDraw_of_accepted hmx hrej hacc] at h
    exact ⟨k + 1, (congrArg Prod.snd (Option.some.inj h)).symm⟩
  · rw [boundedDraw_of_rejected hmx hall] at h
    cases h

end Sys2Proof.Machine
end

