-- ==== Sys2Proof/Laws/Meanings.lean ====
section
/-! SUPPORT. What each command's meaning answers, once, as an equation whose right side is a plain record: the later
proofs cite these and unfold no meaning. -/

namespace Sys2Proof.Machine

variable {s : State}

theorem execNext_eq (h : s.seeding = false) :
    execNext s = .next { s with engine := s.engine.advance, res0 := s.engine.output, code := .ok } :=
  sample_of_closed h id

theorem execBits_eq {b : BitVec 8} (hb : b.toNat ≤ 64) (h : s.seeding = false) :
    execBits b s =
      .next { s with engine := s.engine.advance, res0 := bitsFn s.engine.output b.toNat, code := .ok } := by
  rw [execBits, if_neg (by omega)]
  exact sample_of_closed h fun x => bitsFn x b.toNat

theorem execU32_eq (h : s.seeding = false) :
    execU32 s = .next { s with engine := s.engine.advance, res0 := high32 s.engine.output, code := .ok } :=
  sample_of_closed h high32

theorem execU32p_eq (h : s.seeding = false) :
    execU32p s =
      .next { s with engine := s.engine.advance, res0 := low32 s.engine.output, res1 := high32 s.engine.output,
                     code := .ok } := by
  rw [execU32p, outsideSeeding_of_closed h]
  exact done_pair s s.engine.advance (low32 s.engine.output) (high32 s.engine.output)

theorem execF52_eq (h : s.seeding = false) :
    execF52 s = .next { s with engine := s.engine.advance, res0 := f52bits s.engine.output, code := .ok } :=
  sample_of_closed h f52bits

theorem execF53_eq (h : s.seeding = false) :
    execF53 s = .next { s with engine := s.engine.advance, res0 := f53bits s.engine.output, code := .ok } :=
  sample_of_closed h f53bits

theorem execDiscard_eq (n : Word) (h : s.seeding = false) :
    execDiscard n s = .next { s with engine := s.engine.steps n.toNat, code := .ok } := by
  rw [execDiscard, outsideSeeding_of_closed h, done_withEngine]

theorem execU64b_zero (h : s.seeding = false) :
    execU64b 0 s = .next { s with code := .domain, sticky := true } := by
  rw [execU64b, outsideSeeding_of_closed h, if_pos rfl]
  rfl

theorem execU64b_of_some {mx r : Word} {e : Engine} (h : s.seeding = false) (hmx : mx ≠ 0)
    (hd : boundedDraw mx s.engine = some (r, e)) :
    execU64b mx s = .next { s with engine := e, res0 := r, code := .ok } := by
  rw [execU64b, outsideSeeding_of_closed h, if_neg hmx, hd]
  exact done_withEngine_withRes0 s e r

theorem execU64b_of_none {mx : Word} (h : s.seeding = false) (hmx : mx ≠ 0) (hd : boundedDraw mx s.engine = none) :
    execU64b mx s = .fault .u64bDiverges := by
  rw [execU64b, outsideSeeding_of_closed h, if_neg hmx, hd]

theorem seedWith_eq (c : Cfg) (x : Word) (s : State) :
    seedWith c x s = .next { s with engine := seedScalar c x, acc := none, seeding := false, code := .ok } := by
  rw [seedWith, done_seeding]

theorem seqbeginWith_eq (c : Cfg) (s : State) :
    seqbeginWith c s =
      .next { s with engine := (seedInit c).1, acc := some (seedInit c).2, seeding := true, code := .ok } := by
  rw [seqbeginWith]
  exact done_seeding s _ _ _

theorem seqpushWith_eq (c : Cfg) (x : Word) {a : Word} (h : s.seeding = true) (ha : s.acc = some a) :
    seqpushWith c x s =
      .next { s with engine := (mixIn c (s.engine, a) x).1, acc := some (mixIn c (s.engine, a) x).2, code := .ok } := by
  rw [seqpushWith, insideSeeding_of_open h, ha]
  dsimp only
  rw [done_withEngine_withAcc]

theorem seqendWith_eq (c : Cfg) (h : s.seeding = true) :
    seqendWith c s =
      .next { s with engine := finishSeeding c s.engine, acc := none, seeding := false, code := .ok } := by
  rw [seqendWith, insideSeeding_of_open h, done_seeding]

theorem mixWith_eq (c : Cfg) (acc : Word) (s : State) :
    mixWith c acc s = .next { s with res0 := (mix c acc).1, res1 := (mix c acc).2, code := .ok } := by
  rw [mixWith]
  generalize mix c acc = p
  exact done_withRes0_withRes1 s p.1 p.2

theorem execSeed_eq (x : Word) (s : State) :
    execSeed x s =
      .next { s with engine := seedScalar Config.cfg x, acc := none, seeding := false, code := .ok } := by
  rw [execSeed, seedWith_eq]

theorem execSeqbegin_eq (s : State) :
    execSeqbegin s =
      .next { s with engine := (seedInit Config.cfg).1, acc := some (seedInit Config.cfg).2, seeding := true,
                     code := .ok } := by
  rw [execSeqbegin, seqbeginWith_eq]

theorem execSeqpush_eq (x : Word) {a : Word} (h : s.seeding = true) (ha : s.acc = some a) :
    execSeqpush x s =
      .next { s with engine := (mixIn Config.cfg (s.engine, a) x).1,
                     acc := some (mixIn Config.cfg (s.engine, a) x).2, code := .ok } := by
  rw [execSeqpush, seqpushWith_eq _ x h ha]

theorem execSeqend_eq (h : s.seeding = true) :
    execSeqend s =
      .next { s with engine := finishSeeding Config.cfg s.engine, acc := none, seeding := false, code := .ok } := by
  rw [execSeqend, seqendWith_eq _ h]

theorem execMix_eq (acc : Word) (s : State) :
    execMix acc s =
      .next { s with res0 := (mix Config.cfg acc).1, res1 := (mix Config.cfg acc).2, code := .ok } := by
  rw [execMix, mixWith_eq]

theorem execStrd_eq (i : Fin 4) (s : State) :
    execStrd i s = .next { s with res0 := s.engine.get i, code := .ok } := done_withRes0 s _

theorem execStwr_eq (i : Fin 4) (v : Word) (h : s.seeding = false) :
    execStwr i v s = .next { s with engine := s.engine.set i v, code := .ok } := by
  rw [execStwr, outsideSeeding_of_closed h, done_withEngine]

theorem execQmin_eq (s : State) : execQmin s = .next { s with res0 := Config.rawMin, code := .ok } := done_withRes0 s _

theorem execQmax_eq (s : State) : execQmax s = .next { s with res0 := Config.rawMax, code := .ok } := done_withRes0 s _

/-- Every way a command can answer a next state: a fault's whole effect; draws; results alone; a state word written; and
the four effects of seeding. -/
theorem execWith_next_cases {c : Cfg} {i : Instr} {t : State} (h : execWith c i s = .next t) :
    (∃ k, k ≠ .ok ∧ t = { s with code := k, sticky := true }) ∨
    (s.seeding = false ∧ ∃ n v w, t = { s with engine := s.engine.steps n, res0 := v, res1 := w, code := .ok }) ∨
    (∃ v w, t = { s with res0 := v, res1 := w, code := .ok }) ∨
    (s.seeding = false ∧ ∃ k v, i = .stwr k v ∧ t = { s with engine := s.engine.set k v, code := .ok }) ∨
    (∃ x, i = .seed x ∧
      t = { s with engine := seedScalar c x, acc := none, seeding := false, code := .ok }) ∨
    (i = .seqbegin ∧
      t = { s with engine := (seedInit c).1, acc := some (seedInit c).2, seeding := true,
                   code := .ok }) ∨
    (s.seeding = true ∧ ∃ x a, i = .seqpush x ∧ s.acc = some a ∧
      t = { s with engine := (mixIn c (s.engine, a) x).1,
                   acc := some (mixIn c (s.engine, a) x).2, code := .ok }) ∨
    (s.seeding = true ∧ i = .seqend ∧
      t = { s with engine := finishSeeding c s.engine, acc := none, seeding := false, code := .ok }) := by
  have hso : StatusCode.seqOrder ≠ .ok := nofun
  cases i with
  | next =>
    rw [execWith] at h
    obtain hs | hs := Bool.eq_false_or_eq_true s.seeding
    · rw [execNext, sample_of_open hs] at h; cases h; exact .inl ⟨_, hso, rfl⟩
    · rw [execNext_eq hs] at h; cases h; exact .inr (.inl ⟨hs, 1, _, _, rfl⟩)
  | bits b =>
    rw [execWith] at h
    by_cases hb : b.toNat ≤ 64
    · obtain hs | hs := Bool.eq_false_or_eq_true s.seeding
      · rw [execBits, if_neg (by omega), sample_of_open hs] at h; cases h; exact .inl ⟨_, hso, rfl⟩
      · rw [execBits_eq hb hs] at h; cases h; exact .inr (.inl ⟨hs, 1, _, _, rfl⟩)
    · rw [execBits, if_pos (by omega)] at h
      cases h
      exact .inl ⟨.bitsRange, nofun, rfl⟩
  | u64b mx =>
    rw [execWith] at h
    obtain hs | hs := Bool.eq_false_or_eq_true s.seeding
    · rw [execU64b, outsideSeeding_open_eq hs] at h; cases h; exact .inl ⟨_, hso, rfl⟩
    · by_cases hmx : mx = 0
      · subst hmx
        rw [execU64b_zero hs] at h
        cases h
        exact .inl ⟨.domain, nofun, rfl⟩
      · cases hd : boundedDraw mx s.engine with
        | none => rw [execU64b_of_none hs hmx hd] at h; cases h
        | some p =>
          obtain ⟨r, e⟩ := p
          rw [execU64b_of_some hs hmx hd] at h
          cases h
          obtain ⟨n, rfl⟩ := boundedDraw_steps hmx hd
          exact .inr (.inl ⟨hs, n, _, _, rfl⟩)
  | u32 =>
    rw [execWith] at h
    obtain hs | hs := Bool.eq_false_or_eq_true s.seeding
    · rw [execU32, sample_of_open hs] at h; cases h; exact .inl ⟨_, hso, rfl⟩
    · rw [execU32_eq hs] at h; cases h; exact .inr (.inl ⟨hs, 1, _, _, rfl⟩)
  | u32p =>
    rw [execWith] at h
    obtain hs | hs := Bool.eq_false_or_eq_true s.seeding
    · rw [execU32p, outsideSeeding_open_eq hs] at h; cases h; exact .inl ⟨_, hso, rfl⟩
    · rw [execU32p_eq hs] at h; cases h; exact .inr (.inl ⟨hs, 1, _, _, rfl⟩)
  | f52 =>
    rw [execWith] at h
    obtain hs | hs := Bool.eq_false_or_eq_true s.seeding
    · rw [execF52, sample_of_open hs] at h; cases h; exact .inl ⟨_, hso, rfl⟩
    · rw [execF52_eq hs] at h; cases h; exact .inr (.inl ⟨hs, 1, _, _, rfl⟩)
  | f53 =>
    rw [execWith] at h
    obtain hs | hs := Bool.eq_false_or_eq_true s.seeding
    · rw [execF53, sample_of_open hs] at h; cases h; exact .inl ⟨_, hso, rfl⟩
    · rw [execF53_eq hs] at h; cases h; exact .inr (.inl ⟨hs, 1, _, _, rfl⟩)
  | discard n =>
    rw [execWith] at h
    obtain hs | hs := Bool.eq_false_or_eq_true s.seeding
    · rw [execDiscard, outsideSeeding_open_eq hs] at h; cases h; exact .inl ⟨_, hso, rfl⟩
    · rw [execDiscard_eq n hs] at h; cases h; exact .inr (.inl ⟨hs, n.toNat, _, _, rfl⟩)
  | seed x =>
    rw [execWith, seedWith_eq] at h
    cases h
    exact .inr (.inr (.inr (.inr (.inl ⟨x, rfl, rfl⟩))))
  | seqbegin =>
    rw [execWith, seqbeginWith_eq] at h
    cases h
    exact .inr (.inr (.inr (.inr (.inr (.inl ⟨rfl, rfl⟩)))))
  | seqpush x =>
    rw [execWith] at h
    obtain hs | hs := (Bool.eq_false_or_eq_true s.seeding).symm
    · rw [seqpushWith, insideSeeding_closed_eq hs] at h; cases h; exact .inl ⟨_, hso, rfl⟩
    · cases ha : s.acc with
      | none => rw [seqpushWith, insideSeeding_of_open hs, ha] at h; cases h
      | some a =>
        rw [seqpushWith_eq c x hs ha] at h
        cases h
        exact .inr (.inr (.inr (.inr (.inr (.inr (.inl ⟨hs, x, a, rfl, rfl, rfl⟩))))))
  | seqend =>
    rw [execWith] at h
    obtain hs | hs := (Bool.eq_false_or_eq_true s.seeding).symm
    · rw [seqendWith, insideSeeding_closed_eq hs] at h; cases h; exact .inl ⟨_, hso, rfl⟩
    · rw [seqendWith_eq c hs] at h
      cases h
      exact .inr (.inr (.inr (.inr (.inr (.inr (.inr ⟨hs, rfl, rfl⟩))))))
  | mix acc =>
    rw [execWith, mixWith_eq] at h
    generalize mix c acc = p at h
    cases h
    exact .inr (.inr (.inl ⟨_, _, rfl⟩))
  | strd k =>
    rw [execWith, execStrd_eq] at h
    cases h
    exact .inr (.inr (.inl ⟨_, _, rfl⟩))
  | stwr k v =>
    rw [execWith] at h
    obtain hs | hs := Bool.eq_false_or_eq_true s.seeding
    · rw [execStwr, outsideSeeding_open_eq hs] at h; cases h; exact .inl ⟨_, hso, rfl⟩
    · rw [execStwr_eq k v hs] at h
      cases h
      exact .inr (.inr (.inr (.inl ⟨hs, k, v, rfl, rfl⟩)))
  | qmin =>
    rw [execWith, execQmin_eq] at h
    cases h
    exact .inr (.inr (.inl ⟨_, _, rfl⟩))
  | qmax =>
    rw [execWith, execQmax_eq] at h
    cases h
    exact .inr (.inr (.inl ⟨_, _, rfl⟩))

/-- A command leaves the host's events as they are. -/
theorem execWith_keeps_port {c : Cfg} {i : Instr} {t : State} (h : execWith c i s = .next t) : t.port = s.port := by
  obtain ⟨_, _, rfl⟩ | ⟨_, _, _, _, rfl⟩ | ⟨_, _, rfl⟩ | ⟨_, _, _, _, rfl⟩ | ⟨_, _, rfl⟩ | ⟨_, rfl⟩ |
    ⟨_, _, _, _, _, rfl⟩ | ⟨_, _, rfl⟩ := execWith_next_cases h <;> rfl

/-- The same of the machine's own commands. -/
theorem exec_next_cases {i : Instr} {t : State} (h : exec i s = .next t) :
    (∃ k, k ≠ .ok ∧ t = { s with code := k, sticky := true }) ∨
    (s.seeding = false ∧ ∃ n v w, t = { s with engine := s.engine.steps n, res0 := v, res1 := w, code := .ok }) ∨
    (∃ v w, t = { s with res0 := v, res1 := w, code := .ok }) ∨
    (s.seeding = false ∧ ∃ k v, i = .stwr k v ∧ t = { s with engine := s.engine.set k v, code := .ok }) ∨
    (∃ x, i = .seed x ∧
      t = { s with engine := seedScalar Config.cfg x, acc := none, seeding := false, code := .ok }) ∨
    (i = .seqbegin ∧
      t = { s with engine := (seedInit Config.cfg).1, acc := some (seedInit Config.cfg).2, seeding := true,
                   code := .ok }) ∨
    (s.seeding = true ∧ ∃ x a, i = .seqpush x ∧ s.acc = some a ∧
      t = { s with engine := (mixIn Config.cfg (s.engine, a) x).1,
                   acc := some (mixIn Config.cfg (s.engine, a) x).2, code := .ok }) ∨
    (s.seeding = true ∧ i = .seqend ∧
      t = { s with engine := finishSeeding Config.cfg s.engine, acc := none, seeding := false, code := .ok }) :=
  execWith_next_cases ((execWith_cfg i s).trans h)

end Sys2Proof.Machine
end

