-- ==== Sys2Proof/Laws/PerInstr.lean ====
section
/-! SUPPORT. Per instruction: the encoder's word lies in the instruction's row of spec/opcode_table.json
(30_encoding.md R87). -/

namespace Sys2Proof.Laws.EncodedInRow

/-- The word of a well-formed instruction lies in the row of its mnemonic. -/
def Statement (i : Instr) : Prop :=
  i.wf = true → ∃ r ∈ opcodeTable, r.mnemonic = i.mnemonic ∧ r.holds (encode i).word = true

theorem next : Statement .next := fun _ => ⟨⟨"NEXT", 0x00000001, 0xFFFFFFFF⟩, by decide, rfl, by decide⟩

theorem bits (b : BitVec 8) : Statement (.bits b) := by
  intro h
  refine ⟨⟨"BITS", 0x00000002, 0xFFFF00FF⟩, by decide, rfl, ?_⟩
  clear h
  revert b
  decide

theorem u64b (mx : Word) : Statement (.u64b mx) := fun _ => ⟨⟨"U64B", 0x00000003, 0xFFFFFFFF⟩, by decide, rfl,
    show OpcodeRow.holds _ (Machine.buildWord 0x03 0 0) = true by decide⟩
theorem u32 : Statement .u32 := fun _ => ⟨⟨"U32", 0x00000004, 0xFFFFFFFF⟩, by decide, rfl, by decide⟩
theorem u32p : Statement .u32p := fun _ => ⟨⟨"U32P", 0x00000005, 0xFFFFFFFF⟩, by decide, rfl, by decide⟩
theorem f52 : Statement .f52 := fun _ => ⟨⟨"F52", 0x00000006, 0xFFFFFFFF⟩, by decide, rfl, by decide⟩
theorem f53 : Statement .f53 := fun _ => ⟨⟨"F53", 0x00000007, 0xFFFFFFFF⟩, by decide, rfl, by decide⟩

theorem discard (n : Word) : Statement (.discard n) := fun _ =>
  ⟨⟨"DISCARD", 0x00000008, 0xFFFFFFFF⟩, by decide, rfl,
    show OpcodeRow.holds _ (Machine.buildWord 0x08 0 0) = true by decide⟩

theorem seed (x : Word) : Statement (.seed x) := fun _ => ⟨⟨"SEED", 0x00000010, 0xFFFFFFFF⟩, by decide, rfl,
    show OpcodeRow.holds _ (Machine.buildWord 0x10 0 0) = true by decide⟩

theorem seqbegin : Statement .seqbegin := fun _ => ⟨⟨"SEQBEGIN", 0x00000011, 0xFFFFFFFF⟩, by decide, rfl, by decide⟩

theorem seqpush (x : Word) : Statement (.seqpush x) := fun _ =>
  ⟨⟨"SEQPUSH", 0x00000012, 0xFFFFFFFF⟩, by decide, rfl,
    show OpcodeRow.holds _ (Machine.buildWord 0x12 0 0) = true by decide⟩

theorem seqend : Statement .seqend := fun _ => ⟨⟨"SEQEND", 0x00000013, 0xFFFFFFFF⟩, by decide, rfl, by decide⟩
theorem mix (acc : Word) : Statement (.mix acc) := fun _ => ⟨⟨"MIX", 0x00000018, 0xFFFFFFFF⟩, by decide, rfl,
    show OpcodeRow.holds _ (Machine.buildWord 0x18 0 0) = true by decide⟩

theorem strd (i : Fin 4) : Statement (.strd i) := by
  intro _
  refine ⟨⟨"STRD", 0x00000020, 0xFFFCFFFF⟩, by decide, rfl, ?_⟩
  revert i
  decide

theorem stwr (i : Fin 4) (v : Word) : Statement (.stwr i v) := by
  intro _
  refine ⟨⟨"STWR", 0x00000021, 0xFFFCFFFF⟩, by decide, rfl, ?_⟩
  have h : ∀ j : Fin 4, OpcodeRow.holds ⟨"STWR", 0x00000021, 0xFFFCFFFF⟩ (encode (.stwr j 0)).word = true := by decide
  exact h i

theorem qmin : Statement .qmin := fun _ => ⟨⟨"QMIN", 0x00000028, 0xFFFFFFFF⟩, by decide, rfl, by decide⟩
theorem qmax : Statement .qmax := fun _ => ⟨⟨"QMAX", 0x00000029, 0xFFFFFFFF⟩, by decide, rfl, by decide⟩

end Sys2Proof.Laws.EncodedInRow
end

