-- ==== Sys2Proof/Tests/Slice0.lean ====
section
/-! SUPPORT. Tests on fixed values, each from the spec (95_test_vectors.md by the vector's name, or a rule), and for
every obligation with hypotheses a witness: concrete states and operands that meet all of them together, at the
boundary values of each clause. -/

namespace Sys2Proof.Tests

open Sys2Proof Sys2Proof.Machine Sys2Proof.Claims

/-! ### Small states and readers -/

/-- A state outside a sequence, its other registers as after reset. -/
def st (e : Engine) : State := ⟨⟨e, none, .ok, false, false, 0, 0⟩, []⟩

/-- A state inside a sequence. -/
def stOpen (e : Engine) (a : Word) : State := ⟨⟨e, some a, .ok, true, false, 0, 0⟩, []⟩

/-- The engine (1, 2, 3, 4) of V-STEP-1. -/
def e1234 : Engine := ⟨1, 2, 3, 4⟩

/-- The example state XS of V-SMP-0, which draws 0x123456789ABCDEF0. -/
def xs : Engine := ⟨0, 0x6022F1426BC29C4E, 0, 0⟩

/-- A field of the next state, where there is one. -/
def reading {α : Type} (f : State → α) (r : Result) : Option α :=
  match r with
  | .next t => some (f t)
  | .fault _ => none
  | .refused _ => none

/-- `a` and then `b` on the state that `a` leaves. -/
def andThen (a : Result) (b : State → Result) : Result :=
  match a with
  | .next t => b t
  | .fault f => .fault f
  | .refused r => .refused r

/-- The fault that stops the machine, where one does. -/
def stopping (r : Result) : Option Fault :=
  match r with
  | .next _ => none
  | .fault f => some f
  | .refused _ => none

/-- The refusal that stops the machine, where one does. -/
def refusing (r : Result) : Option Refusal :=
  match r with
  | .next _ => none
  | .fault _ => none
  | .refused q => some q

/-- Two opened words of each opcode: the command's own word and one with IMM8 = 1. -/
def alone (opc : BitVec 8) : Bool :=
  decide ((opc.zeroExtend 32 : CmdWord).extractLsb' 0 8 = opc) &&
  decide ((opc.zeroExtend 32 ||| 0x100 : CmdWord).extractLsb' 0 8 = opc) &&
  decide ((opc.zeroExtend 32 ||| 0x100 : CmdWord) ≠ opc.zeroExtend 32)

/-! ### Well-formedness -/

/-- 30_encoding.md R84: b = 65 and b = 255 are no operands of BITS; 0 and 64 are. -/
theorem test_wf_bits :
    (Instr.bits 65).wf = false ∧ (Instr.bits 255).wf = false ∧ (Instr.bits 0).wf = true ∧ (Instr.bits 64).wf = true := by
  decide

/-- 00_scope.md R11: one ill-formed configuration for each constraint. -/
theorem test_cfg_wf_refuses :
    { tc1 with mixR1 := 0 }.wf = false ∧ { tc1 with mixR2 := 64 }.wf = false ∧ { tc1 with mixR3 := 0 }.wf = false ∧
    { tc1 with mixM1 := 2 }.wf = false ∧ { tc1 with mixM2 := 4 }.wf = false ∧
    { tc1 with mixM2 := 0xBF58476D1CE4E5B9 }.wf = false ∧ { tc1 with zeroFallback := 0 }.wf = false := by
  decide

/-- TC1 is well-formed. -/
theorem test_cfg_wf_tc1 : tc1.wf = true := by decide

/-! ### Decoding: 95_test_vectors.md section 7, written out -/

theorem test_decode_next : decode ⟨0x00000001, 0⟩ = .instr .next := by decide
theorem test_decode_bits_32 : decode ⟨0x00002002, 0⟩ = .instr (.bits 32) := by decide
theorem test_decode_bits_64 : decode ⟨0x00004002, 7⟩ = .instr (.bits 64) := by decide
theorem test_decode_u64b : decode ⟨0x00000003, 0x3E8⟩ = .instr (.u64b 1000) := by decide
theorem test_decode_u32 : decode ⟨0x00000004, 0⟩ = .instr .u32 := by decide
theorem test_decode_u32p : decode ⟨0x00000005, 0⟩ = .instr .u32p := by decide
theorem test_decode_f52 : decode ⟨0x00000006, 0⟩ = .instr .f52 := by decide
theorem test_decode_f53 : decode ⟨0x00000007, 0⟩ = .instr .f53 := by decide
theorem test_decode_discard : decode ⟨0x00000008, 3⟩ = .instr (.discard 3) := by decide
theorem test_decode_seed : decode ⟨0x00000010, 0x49E2⟩ = .instr (.seed 18914) := by decide
theorem test_decode_seqbegin : decode ⟨0x00000011, 0⟩ = .instr .seqbegin := by decide
theorem test_decode_seqpush : decode ⟨0x00000012, 1⟩ = .instr (.seqpush 1) := by decide
theorem test_decode_seqend : decode ⟨0x00000013, 0⟩ = .instr .seqend := by decide
theorem test_decode_mix : decode ⟨0x00000018, 0⟩ = .instr (.mix 0) := by decide
theorem test_decode_strd : decode ⟨0x00020020, 0⟩ = .instr (.strd 2) := by decide
theorem test_decode_stwr : decode ⟨0x00030021, 4⟩ = .instr (.stwr 3 4) := by decide
theorem test_decode_qmin : decode ⟨0x00000028, 0⟩ = .instr .qmin := by decide
theorem test_decode_qmax : decode ⟨0x00000029, 0⟩ = .instr .qmax := by decide

/-- V-FLT-1 to V-FLT-9. -/
theorem test_decode_illegal :
    ([0x00000000, 0x00000009, 0x000001FF, 0x00000101, 0x00010001, 0x00000120, 0x00040000, 0x00044102,
      0x00014002] : List CmdWord).map (fun w => decode ⟨w, 0⟩) = List.replicate 9 (.fault .illegal) := by
  decide

/-- V-FLT-10. -/
theorem test_decode_bits_range : decode ⟨0x00004102, 0⟩ = .fault .bitsRange := by decide

/-- The words of section 7 read as one number, ARG above CMD (entry 12). -/
theorem test_decode_table_word :
    decodeTableWord 32 0x00030021 = some (.stwr 3 0) ∧ decodeTableWord 96 0x400030021 = some (.stwr 3 4) ∧
    decodeTableWord 32 0x00044102 = none := by
  decide

/-- Section 7's words, emitted. -/
theorem test_encode :
    encode (.bits 32) = ⟨0x00002002, 0⟩ ∧ encode (.stwr 3 4) = ⟨0x00030021, 4⟩ ∧ encode (.strd 2) = ⟨0x00020020, 0⟩ := by
  decide

/-! ### Commands -/

/-- V-STEP-5. -/
theorem test_next :
    reading (fun t => (t.res0, t.engine)) (exec .next (st e1234)) =
      some (0x2D00, ⟨0x7, 0x0, 0x40002, 0x0000C00000000000⟩) := by
  decide

/-- V-STEP-3b. -/
theorem test_next_all_ones :
    reading (·.res0) (exec .next (st ⟨0, 0x4FC71C71C71C71C7, 0, 0⟩)) = some 0xFFFFFFFFFFFFFFFF := by
  decide

/-- V-STEP-2 on the second row of V-STEP-1. -/
theorem test_unstep :
    (⟨0x0000C00000000007, 0x0000000000040005, 0x0000000000040005, 0x0000000018000000⟩ : Engine).unstep =
      ⟨0x7, 0x0, 0x40002, 0x0000C00000000000⟩ := by
  decide

/-- V-STEP-4b. -/
theorem test_discard :
    reading (·.engine) (exec (.discard 3) (st e1234)) =
      some ⟨0x0000C00018040002, 0x0000C00000000007, 0x0000C008000E0002, 0x8000A00000000300⟩ := by
  decide +kernel

/-- V-STEP-4c. -/
theorem test_discard_256 :
    reading (·.engine) (exec (.discard 256) (st e1234)) =
      some ⟨0x724645A5A9DE4809, 0x9D1368C84F47A611, 0x16312D30AFA2AC7C, 0x9783F09D6A060ECC⟩ := by
  decide +kernel

/-- V-SMP-1, with the next state's engine from V-SMP-0: b = 0 draws. -/
theorem test_bits_0 :
    reading (fun t => (t.res0, t.engine)) (exec (.bits 0) (st xs)) =
      some (0, ⟨0x6022F1426BC29C4E, 0x6022F1426BC29C4E, 0xE284D785389C0000, 0x5389CC045E284D78⟩) := by
  decide

/-- V-SMP-1: b = 63. -/
theorem test_bits_63 : reading (·.res0) (exec (.bits 63) (st xs)) = some 0x091A2B3C4D5E6F78 := by decide

/-- V-SMP-2: the bound 2^64 - 1. -/
theorem test_u64b_max :
    reading (·.res0) (exec (.u64b 0xFFFFFFFFFFFFFFFF) (st xs)) = some 0x123456789ABCDEEF := by
  decide +kernel

/-- V-SMP-2c: eleven draws. -/
theorem test_u64b_rejects :
    reading (fun t => (t.res0, t.engine)) (exec (.u64b 0x8000000000000001) (st e1234)) =
      some (0x646BA4802D209C10,
        ⟨0x1C7242088587C2CC, 0x2800C80800C16017, 0x4C6C5A1A050962F1, 0x9403EF8EC5C35298⟩) := by
  decide +kernel

/-- V-SMP-3. -/
theorem test_u32 : reading (fun t => (t.res0, t.res1)) (exec .u32 (st xs)) = some (0x12345678, 0) := by decide

/-- V-SRC-1. -/
theorem test_u32p : reading (fun t => (t.res0, t.res1)) (exec .u32p (st xs)) = some (0x9ABCDEF0, 0x12345678) := by
  decide

/-- P2, line 6. -/
theorem test_f52 : reading (·.res0) (exec .f52 (st xs)) = some 0x3FB23456789ABCD8 := by decide

/-- V-SMP-4, column F52. -/
theorem test_f52_table :
    [0x0, 0x7FF, 0x800, 0xFFF, 0x1000, 0x8000000000000000, 0xFFFFFFFFFFFFFFFF].map f52bits =
      [0x3CA0000000000000, 0x3CA0000000000000, 0x3CA0000000000000, 0x3CA0000000000000, 0x3CB8000000000000,
       0x3FE0000000000001, 0x3FEFFFFFFFFFFFFF] := by
  decide

/-- F53 on the draw of V-SMP-0. -/
theorem test_f53 : reading (·.res0) (exec .f53 (st xs)) = some 0x3FB23456789ABCD8 := by decide

/-- V-SMP-4, column F53. -/
theorem test_f53_table :
    [0x0, 0x7FF, 0x800, 0xFFF, 0x1000, 0x8000000000000000, 0xFFFFFFFFFFFFFFFF].map f53bits =
      [0x0, 0x0, 0x3CA0000000000000, 0x3CA0000000000000, 0x3CB0000000000000, 0x3FE0000000000000,
       0x3FEFFFFFFFFFFFFF] := by
  decide

/-- V-MIX-5 and V-MIX-8, under TC1. -/
theorem test_mix :
    reading (fun t => (t.res0, t.res1)) (mixWith tc1 0x49E2 (st e1234)) =
      some (0x482D154AEBC5D7FE, 0x9E3779B97F4AC5F7) ∧
    reading (fun t => (t.res0, t.res1)) (mixWith tc1 0x61C8864680B583EB (st e1234)) = some (0, 0) := by
  decide

/-- V-MIX-9: MIX leaves ACC. -/
theorem test_mix_keeps_acc :
    reading (fun t => (t.res0, t.acc, t.status)) (mixWith tc1 0 (stOpen e1234 0x78DDE6E5FD29F054)) =
      some (0xE220A8397B1DCDAF, some 0x78DDE6E5FD29F054, 0x10) := by
  decide

/-- V-SEED-1. -/
theorem test_seed :
    reading (·.engine) (seedWith tc1 18914 (st e1234)) =
      some ⟨0xC1EF19ACC838D05B, 0xE7424AF364508EAC, 0xDF076002A3C1660F, 0x6205EBF4EB3E83CA⟩ := by
  decide +kernel

/-- V-SEED-6: after `seqbegin`. -/
theorem test_seqbegin :
    reading (fun t => (t.engine, t.acc, t.status)) (seqbeginWith tc1 (st e1234)) = some (Engine.zero, some 0, 0x10) := by
  decide

/-- V-SEED-6: after `seqbegin; seqpush 0`, whose engine is V-SEED-4's. -/
theorem test_seqpush :
    reading (fun t => (t.engine, t.acc)) (seqpushWith tc1 0 (stOpen Engine.zero 0)) =
      some (⟨0xE220A8397B1DCDAF, 0x6E789E6AA1B965F4, 0x06C45D188009454F, 0xF88BB8A8724C81EC⟩,
        some 0x78DDE6E5FD29F054) := by
  decide

/-- V-SEED-3: an empty sequence, where ZeroCheck substitutes. -/
theorem test_seqend_empty :
    reading (fun t => (t.engine, t.acc, t.status)) (seqendWith tc1 (stOpen Engine.zero 0)) =
      some (⟨0xBF638FEA7303E187, 0x08E64352F6C6DC95, 0x809FE9AF969D7452, 0x4139618274C84C3B⟩, none, 0) := by
  decide +kernel

/-- V-SEED-2: the sequence [1, 2], whole. -/
theorem test_sequence :
    reading (·.engine) (andThen (andThen (andThen (seqbeginWith tc1 (st e1234)) (seqpushWith tc1 1))
      (seqpushWith tc1 2)) (seqendWith tc1)) =
      some ⟨0x7ECB08922DE93C84, 0x71A1B3C488AD5BD2, 0x015305BF03FADAF8, 0x82B368082EEADB17⟩ := by
  decide +kernel

/-- V-ST-1 on (1, 2, 3, 4), in either mode (V-ST-4). -/
theorem test_strd :
    reading (·.res0) (exec (.strd 2) (st e1234)) = some 3 ∧
    reading (fun t => (t.res0, t.status)) (exec (.strd 3) (stOpen e1234 0)) = some (4, 0x10) := by
  decide

/-- V-ST-2. -/
theorem test_stwr :
    reading (·.engine) (exec (.stwr 2 0xDEADBEEF) (st e1234)) = some ⟨1, 2, 0xDEADBEEF, 4⟩ := by decide

/-- V-ST-7. -/
theorem test_qmin_qmax :
    reading (·.res0) (exec .qmin (stOpen e1234 0)) = some 0 ∧
    reading (·.res0) (exec .qmax (st e1234)) = some 0xFFFFFFFFFFFFFFFF := by
  decide

/-! ### Faults: 95_test_vectors.md section 7 -/

/-- V-FLT-10, V-FLT-11, V-FLT-12, V-FLT-13: STATUS after each. -/
theorem test_fault_status :
    reading (·.status) (runCommand ⟨0x00004102, 0⟩ (st e1234)) = some 0x22 ∧
    reading (·.status) (runCommand ⟨0x00004102, 0⟩ (stOpen e1234 0)) = some 0x32 ∧
    reading (·.status) (runCommand ⟨0x00004002, 0⟩ (stOpen e1234 0)) = some 0x34 ∧
    reading (·.status) (runCommand ⟨0x00000003, 0⟩ (stOpen e1234 0)) = some 0x34 := by
  decide

/-- V-FLT-1, V-FLT-14, V-FLT-15, V-FLT-16. -/
theorem test_fault_status_normal :
    reading (·.status) (runCommand ⟨0x00000000, 0⟩ (st e1234)) = some 0x21 ∧
    reading (·.status) (runCommand ⟨0x00000003, 0⟩ (st e1234)) = some 0x23 ∧
    reading (·.status) (runCommand ⟨0x00000012, 5⟩ (st e1234)) = some 0x24 ∧
    reading (·.status) (runCommand ⟨0x00000013, 0⟩ (st e1234)) = some 0x24 := by
  decide

/-- V-FLT-17, V-FLT-18, and 60_exceptions.md R235 (b) for every other command of the list. -/
theorem test_fault_seq_order :
    ∀ c ∈ ([⟨0x00000001, 0⟩, ⟨0x00000002, 0⟩, ⟨0x00000003, 1⟩, ⟨0x00000004, 0⟩, ⟨0x00000005, 0⟩, ⟨0x00000006, 0⟩,
      ⟨0x00000007, 0⟩, ⟨0x00000008, 0⟩, ⟨0x00030021, 0⟩] : List Command),
      reading id (runCommand c (stOpen e1234 0)) = some { stOpen e1234 0 with code := .seqOrder, sticky := true } := by
  decide

/-- After a fault a success clears CODE and leaves STICKY: 0x22, then 0x20 (95_test_vectors.md section 7). -/
theorem test_sticky_stays :
    reading (·.status) (andThen (runCommand ⟨0x00004102, 0⟩ (st e1234)) (runCommand ⟨0x00000001, 0⟩)) = some 0x20 := by
  decide

/-- P5, line 10: `u64b 3` in the all-zero state diverges. -/
theorem test_u64b_diverges : stopping (exec (.u64b 3) (st Engine.zero)) = some .u64bDiverges := by
  decide +kernel

/-! ### The block, the step, the port and the assembler -/

/-- P2, lines 11 and 12, from the state after line 10: the fault gives an output too. -/
theorem test_observe_run :
    (observeRun tc1 [⟨0x00000003, 0⟩, ⟨0x00000029, 0⟩] { st e1234 with res0 := 0x220, sticky := true }.toBlockState).outputs
      = [(0x220, 0, 0x23), (0xFFFFFFFFFFFFFFFF, 0, 0x20)] := by
  decide +kernel

/-- V-SEED-1: a block of configuration TC1 seeded with 18914 draws this first, and TC1's, not another's. -/
theorem test_block_of_tc1 :
    (observeRun tc1 [⟨0x00000010, 18914⟩, ⟨0x00000001, 0⟩] (st e1234).toBlockState).outputs =
      [(0, 0, 0), (0x53966451148A2052, 0, 0)] := by
  decide +kernel

/-- V-FLT-20's command, placed as a table word, is what the first step after reset runs. -/
theorem test_step_after_reset : reading (·.res0) (step (State.reset.withFetchWord 32 0x00000029)) =
    some 0xFFFFFFFFFFFFFFFF := by decide

/-- 20_memory.md R66: a second host is refused. -/
theorem test_second_host :
    refusing (step { st e1234 with port := [.secondHost ⟨1, 0⟩] }) = some .secondHost := by decide

/-- P2's line 9, from text: the raw form is not checked. -/
theorem test_asm_raw : assembleLine ".cmd 0x4102, 0".toList = some [⟨0x00004102, 0⟩] := by decide

/-- P4's lines 1 and 3, from text, with a comment. -/
theorem test_asm_seedseq :
    assembleLine "  seedseq 1, 0x2 ; two scalars".toList =
      some [⟨0x00000011, 0⟩, ⟨0x00000012, 1⟩, ⟨0x00000012, 2⟩, ⟨0x00000013, 0⟩] := by
  decide

/-- 30_encoding.md R91: lines the assembler rejects. -/
theorem test_asm_rejects :
    assembleLine "bits 65".toList = none ∧ assembleLine "u64b 0".toList = none ∧ assembleLine "u64 0".toList = none ∧
    assembleLine "strd 4".toList = none ∧ assembleLine "next 1".toList = none := by
  decide

/-! ### Witnesses: hypotheses of the obligations met by concrete states and operands -/

/-- Hypotheses of EncodedAlone, which a statement about one opcode uses: a word of that opcode that is the command's
own, and one that is not. -/
theorem witness_EncodedAlone :
    ∀ opc ∈ ([0x01, 0x03, 0x04, 0x05, 0x06, 0x07, 0x08, 0x10, 0x11, 0x12, 0x13, 0x18, 0x28, 0x29] : List (BitVec 8)),
      alone opc = true := by
  decide +kernel

/-- Hypotheses of EncodedWithIndex: the words of the first and the last index, and words of no index. -/
theorem witness_EncodedWithIndex :
    ∀ opc ∈ ([0x20, 0x21] : List (BitVec 8)),
      ((opc.zeroExtend 32 : CmdWord) = opc.zeroExtend 32 ||| (BitVec.ofNat 32 (0 : Fin 4).val <<< 16)) ∧
      (opc.zeroExtend 32 ||| 0x30000 : CmdWord).extractLsb' 0 8 = opc ∧
      (opc.zeroExtend 32 ||| 0x30000 : CmdWord) = opc.zeroExtend 32 ||| (BitVec.ofNat 32 (3 : Fin 4).val <<< 16) ∧
      (opc.zeroExtend 32 ||| 0x40000 : CmdWord).extractLsb' 0 8 = opc ∧
      (∀ k : Fin 4, (opc.zeroExtend 32 ||| 0x40000 : CmdWord) ≠ opc.zeroExtend 32 ||| (BitVec.ofNat 32 k.val <<< 16)) := by
  decide +kernel

/-- TC1 meets the constraints; with MIX_R1 = 64 it does not. -/
theorem witness_IllFormedConfigurationIsRefused :
    ((1 ≤ tc1.mixR1 ∧ tc1.mixR1 ≤ 63) ∧ (1 ≤ tc1.mixR2 ∧ tc1.mixR2 ≤ 63) ∧ (1 ≤ tc1.mixR3 ∧ tc1.mixR3 ≤ 63) ∧
      tc1.mixM1.toNat % 2 = 1 ∧ tc1.mixM2.toNat % 2 = 1 ∧ tc1.mixM1 ≠ tc1.mixM2 ∧ tc1.zeroFallback ≠ 0) ∧
    ¬ (1 ≤ { tc1 with mixR1 := 64 }.mixR1 ∧ { tc1 with mixR1 := 64 }.mixR1 ≤ 63) := by
  decide +kernel

/-- An ill-formed configuration; a well-formed one with a state of the invariant outside and inside a sequence; a command
that is done, and one that diverges. -/
theorem witness_BlockIsAFunctionOfConfigurationStateAndCommand :
    { tc1 with mixR1 := 64 }.wf = false ∧
    (tc1.wf = true ∧ (st e1234).acc.isSome = (st e1234).seeding ∧
      (stOpen e1234 5).acc.isSome = (stOpen e1234 5).seeding) ∧
    blockExec tc1 (stOpen e1234 5).toBlockState ⟨0x00010020, 0⟩ = .done { stOpen e1234 5 with res0 := 2 }.toBlockState ∧
    blockExec tc1 (st Engine.zero).toBlockState ⟨3, 3⟩ = .diverges := by
  decide +kernel

/-- Numbers just out of range and just in range. -/
theorem witness_AssemblerEmitsTheListedPairs : 64 < 65 ∧ 64 ≤ 64 ∧ 4 ≤ 4 := by decide

/-- Rotations by 1 and by 63, the first and the last bit. -/
theorem witness_RotationAndProductAreExact :
    (0 < 1 ∧ 1 < 64) ∧ (0 < 63 ∧ 63 < 64) ∧ 0 < 64 ∧ (rotl 0x8000000000000000 1 = 1 ∧ rotl 1 63 = 0x8000000000000000) := by
  decide

/-- A well-formed configuration, and the first and last pair of call counts. -/
theorem witness_MixerIsBijectiveAndThreadsTheAccumulator :
    tc1.wf = true ∧ (1 ≤ 1 ∧ 1 < 2 ∧ 2 ≤ 2 ^ 64) ∧ (1 ≤ 2 ^ 64 - 1 ∧ 2 ^ 64 - 1 < 2 ^ 64 ∧ 2 ^ 64 ≤ 2 ^ 64) := by
  decide

/-- A non-zero engine. -/
theorem witness_StateMapIsALinearBijection : e1234 ≠ Engine.zero := by decide

/-- The words of MIX. -/
theorem witness_MixWritesOutputAndAccumulator : alone 0x18 = true := by decide

/-- States of every clause: outside a sequence, inside one, all-zero, and (1, 2, 3, 4). -/
theorem witness_NextDrawsOnce :
    alone 0x01 = true ∧ (st e1234).seeding = false ∧ (st e1234).engine = ⟨1, 2, 3, 4⟩ ∧
    (stOpen e1234 0).seeding = true ∧ (st Engine.zero).seeding = false ∧ (st Engine.zero).engine = ⟨0, 0, 0, 0⟩ := by
  decide

/-- The same states for DISCARD. -/
theorem witness_DiscardStepsItsCount :
    alone 0x08 = true ∧ (st e1234).seeding = false ∧ (st e1234).engine = ⟨1, 2, 3, 4⟩ ∧
    (stOpen e1234 0).seeding = true ∧ (st Engine.zero).seeding = false ∧ (st Engine.zero).engine = ⟨0, 0, 0, 0⟩ := by
  decide

/-- Counts whose sum just fits. -/
theorem witness_DiscardEqualsRepeatedNext :
    (st e1234).seeding = false ∧ (0xFFFFFFFFFFFFFFFE : Word).toNat + (1 : Word).toNat < 2 ^ 64 := by decide

/-- A non-zero engine for ZeroCheck. -/
theorem witness_SeedingPhases : e1234 ≠ ⟨0, 0, 0, 0⟩ := by decide

/-- The words of SEQBEGIN. -/
theorem witness_SeqbeginOpensASequence : alone 0x11 = true := by decide

/-- A state inside a sequence with its accumulator, and one outside. -/
theorem witness_SeqpushMixesOneScalar :
    alone 0x12 = true ∧ ((stOpen e1234 5).seeding = true ∧ (stOpen e1234 5).acc = some 5) ∧
    (st e1234).seeding = false := by
  decide

/-- States inside and outside a sequence. -/
theorem witness_SeqendClosesTheSequence :
    alone 0x13 = true ∧ (stOpen e1234 5).seeding = true ∧ (st e1234).seeding = false := by decide

/-- The words of SEED. -/
theorem witness_SeedRunsTheWholeProtocol : alone 0x10 = true := by decide

/-- The host's events for the empty sequence and for two scalars, each with a command to follow. -/
theorem witness_SequenceSeedingRunsTheProtocol :
    { st e1234 with port := [.issue ⟨0x00000011, 0⟩, .issue ⟨0x00000013, 0⟩, .issue ⟨1, 0⟩] }.port =
      .issue ⟨0x00000011, 0⟩ :: ([] : List Word).map (fun x => .issue ⟨0x00000012, x⟩) ++
        .issue ⟨0x00000013, 0⟩ :: [.issue ⟨1, 0⟩] ∧
    { st e1234 with port := [.issue ⟨0x00000011, 0⟩, .issue ⟨0x00000012, 1⟩, .issue ⟨0x00000012, 2⟩,
        .issue ⟨0x00000013, 0⟩] }.port =
      .issue ⟨0x00000011, 0⟩ :: ([1, 2] : List Word).map (fun x => .issue ⟨0x00000012, x⟩) ++
        .issue ⟨0x00000013, 0⟩ :: [] := by
  decide

/-- A state inside a sequence, and a well-formed configuration. -/
theorem witness_SeededEngineIsNeverZero : (stOpen Engine.zero 0).seeding = true ∧ tc1.wf = true := by decide

/-- Two equal non-zero engines. -/
theorem witness_EqualEnginesDifferAfterOneDraw :
    ((st e1234).sameEngine (stOpen e1234 5) = true ∧ (st e1234).engine ≠ ⟨0, 0, 0, 0⟩ ∧ (st e1234).seeding = false) ∧
    ((st Engine.zero).engine = ⟨0, 0, 0, 0⟩ ∧ (st Engine.zero).seeding = false) := by
  decide

/-- Words of BITS: IDX = 1 or a reserved bit, b = 0, b = 64, b = 65 and b = 255; operands 1 and 64; and the draw of XS. -/
theorem witness_BitsTruncatesADraw :
    ((0x00010002 : CmdWord).extractLsb' 0 8 = 0x02 ∧ (0x00010002 : CmdWord).extractLsb' 16 16 ≠ 0) ∧
    ((0x80000002 : CmdWord).extractLsb' 0 8 = 0x02 ∧ (0x80000002 : CmdWord).extractLsb' 16 16 ≠ 0) ∧
    (([0x00000002, 0x00004002] : List CmdWord).all fun w => decide (w.extractLsb' 0 8 = 0x02 ∧
      w.extractLsb' 16 16 = 0 ∧ (w.extractLsb' 8 8).toNat ≤ 64)) = true ∧
    (([0x00004102, 0x0000FF02] : List CmdWord).all fun w => decide (w.extractLsb' 0 8 = 0x02 ∧
      w.extractLsb' 16 16 = 0 ∧ 64 < (w.extractLsb' 8 8).toNat)) = true ∧
    (1 ≤ (1 : BitVec 8).toNat ∧ (1 : BitVec 8).toNat ≤ 64) ∧ (1 ≤ (64 : BitVec 8).toNat ∧ (64 : BitVec 8).toNat ≤ 64) ∧
    (stOpen xs 0).seeding = true ∧ (st xs).seeding = false ∧ (st xs).engine.step.1 = 0x123456789ABCDEF0 := by
  decide +kernel

/-- Operands 0 and 64, outside a sequence. -/
theorem witness_TruncationIdentities :
    (0 : BitVec 8).toNat ≤ 64 ∧ (64 : BitVec 8).toNat ≤ 64 ∧ (st e1234).seeding = false := by decide

/-- A draw on the fast path; eleven draws of which ten are rejected (V-SMP-2c); bounds at both ends; and XS. -/
theorem witness_BoundedDrawReturnsTheFirstAcceptedProduct :
    alone 0x03 = true ∧ (stOpen xs 0).seeding = true ∧ (st xs).seeding = false ∧
    ((1000 : Word) ≠ 0 ∧ (1000 : Word) ≤ lo64 (product 1000 xs 0)) ∧
    ((0x8000000000000001 : Word) ≠ 0 ∧
      (∀ j, j < 10 → lo64 (product 0x8000000000000001 e1234 j) < (0 - 0x8000000000000001) % 0x8000000000000001) ∧
      (0 - 0x8000000000000001 : Word) % 0x8000000000000001 ≤ lo64 (product 0x8000000000000001 e1234 10)) ∧
    (1 ≤ 1 ∧ 1 < 64) ∧ (1 ≤ 63 ∧ 63 < 64) ∧ (st xs).engine.step.1 = 0x123456789ABCDEF0 := by
  decide +kernel

/-- And a U64B command that completes. -/
theorem witness_BoundedDrawCompletes : (reading (·.res0) (exec (.u64b 1000) (st xs))) = some 0x47 := by
  decide +kernel

/-- The least and the greatest bound. -/
theorem witness_RejectionThresholdFacts : (1 : Word) ≠ 0 ∧ (0xFFFFFFFFFFFFFFFF : Word) ≠ 0 := by decide

/-- The all-zero state, bounds 1, 2^63 and 3, and a state that draws 1 next. -/
theorem witness_BoundedDrawCompletesExactlyWhenADrawPasses :
    (st Engine.zero).seeding = false ∧ (st Engine.zero).engine = ⟨0, 0, 0, 0⟩ ∧
    ((1 : Word) ≠ 0 ∧ ∃ k, (1 : Word).toNat = 2 ^ k) ∧
    ((0x8000000000000000 : Word) ≠ 0 ∧ ∃ k, (0x8000000000000000 : Word).toNat = 2 ^ k) ∧
    ((st ⟨0, 0x7D6C16C16C16C16C, 0, 0⟩).seeding = false ∧
      ((st ⟨0, 0x7D6C16C16C16C16C, 0, 0⟩).engine.steps 0).step.1 = 1) ∧
    ((3 : Word) ≠ 0 ∧ ¬ ∃ k, (3 : Word).toNat = 2 ^ k) := by
  refine ⟨by decide, by decide, ⟨by decide, 0, by decide⟩, ⟨by decide, 63, by decide⟩, by decide, by decide, ?_⟩
  rintro ⟨k, hk⟩
  match k, hk with
  | 0, h => exact absurd h (by decide)
  | k + 1, h =>
    have h3 : (3 : Word).toNat = 3 := by decide
    rw [h3] at h
    omega

/-- The least result and the greatest of the greatest bound. -/
theorem witness_AcceptedDrawsAreExactlyUniform :
    ((1 : Word) ≠ 0 ∧ (0 : Word) < 1) ∧
    ((0xFFFFFFFFFFFFFFFF : Word) ≠ 0 ∧ (0xFFFFFFFFFFFFFFFE : Word) < 0xFFFFFFFFFFFFFFFF) := by
  decide

/-- U32 on XS, outside and inside a sequence, and that it completes. -/
theorem witness_U32ReturnsTheHighHalf :
    alone 0x04 = true ∧ (st xs).seeding = false ∧ (st xs).engine.step.1 = 0x123456789ABCDEF0 ∧
    (stOpen xs 0).seeding = true ∧ (reading id (exec .u32 (st xs))).isSome = true := by
  decide

/-- U32P on XS, outside and inside a sequence. -/
theorem witness_U32pReturnsBothHalves :
    alone 0x05 = true ∧ (st xs).seeding = false ∧ (st xs).engine.step.1 = 0x123456789ABCDEF0 ∧
    (stOpen xs 0).seeding = true := by
  decide

/-- F52 outside and inside a sequence, and two draws that differ in their low 12 bits alone. -/
theorem witness_F52EncodesTheSubtraction :
    alone 0x06 = true ∧ (st xs).seeding = false ∧ (stOpen xs 0).seeding = true ∧
    (0x1000 : Word) >>> 12 = (0x1FFF : Word) >>> 12 := by
  decide

/-- F53 outside and inside a sequence, and the draws 0 and 0x7FF. -/
theorem witness_F53EncodesTheScaledInteger :
    alone 0x07 = true ∧ (st xs).seeding = false ∧ (stOpen xs 0).seeding = true ∧
    (0 : Word).toNat < 2 ^ 11 ∧ (0x7FF : Word).toNat < 2 ^ 11 := by
  decide

/-- Draws whose bit 11 is 0. -/
theorem witness_F52AndF53AgreeExactlyOnBit11 :
    (0 : Word).getLsbD 11 = false ∧ (0xFFFFFFFFFFFFF7FF : Word).getLsbD 11 = false := by decide

/-- 1.0, and its own encoding. -/
theorem witness_Binary64EncodingIsUnique :
    ((0x3FF0000000000000 : Word).extractLsb' 52 11).toNat ≠ 2047 ∧ binary64Value 0x3FF0000000000000 ≠ 0 := by
  refine ⟨by decide, ?_⟩
  have h1 : (0x3FF0000000000000 : Word).getLsbD 63 = false := by decide
  have h2 : ((0x3FF0000000000000 : Word).extractLsb' 52 11).toNat = 1023 := by decide
  have h3 : ((0x3FF0000000000000 : Word).extractLsb' 0 52).toNat = 0 := by decide
  unfold binary64Value
  simp only [h1, h2, h3]
  norm_num

/-- A finite binary64 word, 1.0. -/
theorem witness_F52Constants : ((0x3FF0000000000000 : Word).extractLsb' 52 11).toNat ≠ 2047 := by decide

/-- The engine (1, 2, 3, 4), in either mode. -/
theorem witness_StrdExportsOneWord : (st e1234).engine = ⟨1, 2, 3, 4⟩ ∧ (stOpen e1234 0).engine = ⟨1, 2, 3, 4⟩ := by
  decide

/-- STWR outside and inside a sequence. -/
theorem witness_StwrImportsOneWord :
    (st e1234).seeding = false ∧ (st e1234).engine = ⟨1, 2, 3, 4⟩ ∧ (stOpen e1234 0).seeding = true := by decide

/-- The words of QMIN. -/
theorem witness_QminReturnsZero : alone 0x28 = true := by decide

/-- The words of QMAX. -/
theorem witness_QmaxReturnsAllOnes : alone 0x29 = true := by decide

/-- (1, 2, 3, 4) exported from one state and imported into another, with a draw to follow in both. -/
theorem witness_ImportResumesTheExportedStream :
    let s : State := { st e1234 with port := [.issue ⟨1, 0⟩] }
    let t : State := { st xs with port := [.issue ⟨0x00000021, 1⟩, .issue ⟨0x00010021, 2⟩, .issue ⟨0x00020021, 3⟩,
      .issue ⟨0x00030021, 4⟩, .issue ⟨1, 0⟩] }
    (s.Inv ∧ t.Inv ∧ s.seeding = false ∧ t.seeding = false) ∧
    exec (.strd 0) s = .next { s with res0 := 1 } ∧ exec (.strd 1) s = .next { s with res0 := 2 } ∧
    exec (.strd 2) s = .next { s with res0 := 3 } ∧ exec (.strd 3) s = .next { s with res0 := 4 } ∧
    t.port = .issue ⟨0x00000021, 1⟩ :: .issue ⟨0x00010021, 2⟩ :: .issue ⟨0x00020021, 3⟩ :: .issue ⟨0x00030021, 4⟩ ::
      s.port ∧
    (s.port = .issue ⟨1, 0⟩ :: [] ∧ decode ⟨1, 0⟩ = .instr .next) :=
  ⟨⟨rfl, rfl, rfl, rfl⟩, rfl, rfl, rfl, rfl, rfl, rfl, rfl⟩

/-- Twins that differ in every other field. -/
theorem witness_ResultsDependOnlyOnEngineAccumulatorAndMode :
    Twin (st e1234) ⟨⟨e1234, none, .domain, false, true, 7, 8⟩, [.reset]⟩ := ⟨rfl, rfl, rfl⟩

/-- BITS 0, BITS 64, and the greatest index and operand. -/
theorem witness_DecodeInvertsEncode :
    (Instr.bits 0).wf = true ∧ (Instr.bits 64).wf = true ∧ (Instr.stwr 3 0xFFFFFFFFFFFFFFFF).wf = true := by decide

/-- A word that decodes, with an ARG it ignores. -/
theorem witness_EncodeInvertsDecode : decode ⟨0x00004002, 0xFFFFFFFFFFFFFFFF⟩ = .instr (.bits 64) := by decide

/-- Words of rows: one that decodes, and BITS with b = 65. -/
theorem witness_DecodeFollowsTheOpcodeTable :
    decode ⟨0x00030021, 4⟩ = .instr (.stwr 3 4) ∧
    (⟨"STWR", 0x00000021, 0xFFFCFFFF⟩ ∈ opcodeTable ∧
      (⟨"STWR", 0x00000021, 0xFFFCFFFF⟩ : OpcodeRow).holds 0x00030021 = true) ∧
    (⟨"BITS", 0x00000002, 0xFFFF00FF⟩ ∈ opcodeTable ∧
      (⟨"BITS", 0x00000002, 0xFFFF00FF⟩ : OpcodeRow).holds 0x00004102 = true) := by
  decide

/-- A reset, and a command abandoned by one. -/
theorem witness_ResetAbandonsTheCommand :
    { st e1234 with port := [.reset] }.port = .reset :: [] ∧
    { st e1234 with port := [.abandoned ⟨3, 3⟩] }.port = .abandoned ⟨3, 3⟩ :: [] := by
  decide

/-- A state of the invariant, and a step it takes. -/
theorem witness_EveryStepKeepsTheInvariant :
    let s : State := { stOpen e1234 5 with port := [.issue ⟨0x00010020, 0⟩] }
    s.Inv ∧ step s = .next { stOpen e1234 5 with res0 := 2 } := ⟨rfl, rfl⟩

/-- A non-degenerate state, a command that is no STWR, and the step it takes. -/
theorem witness_OnlyStwrCanZeroTheEngine :
    let s : State := { st e1234 with port := [.issue ⟨0x00000029, 0⟩] }
    s.NonDegenerate ∧
    (∀ c rest i v, s.port = .issue c :: rest → decode c ≠ .instr (.stwr i v)) ∧
    step s = .next { st e1234 with res0 := 0xFFFFFFFFFFFFFFFF } := by
  refine ⟨fun _ => by decide, ?_, rfl⟩
  intro c rest i v h
  obtain ⟨rfl, -⟩ := List.cons.inj h |>.imp_left PortEvent.issue.inj
  have hd : decode ⟨0x00000029, 0⟩ = .instr .qmax := by decide
  rw [hd]
  exact fun h => nomatch h

/-- A command that succeeds and one that faults, each with its next state. -/
theorem witness_CommandFrame :
    exec .qmin (stOpen e1234 5) = .next (stOpen e1234 5) ∧ (stOpen e1234 5).code = .ok ∧
    exec .next (stOpen e1234 5) = .next { stOpen e1234 5 with code := .seqOrder, sticky := true } := ⟨rfl, rfl, rfl⟩

/-- A step that clears STICKY, one that faults, and one that changes SEEDING, with what each leaves. -/
theorem witness_OnlyResetClearsSticky :
    (step { st e1234 with port := [.reset], sticky := true } = .next State.reset ∧ State.reset.sticky = false) ∧
    step { st e1234 with port := [.issue ⟨0, 0⟩] } = .next { st e1234 with code := .illegal, sticky := true } ∧
    ((st e1234).seeding = false ∧
      reading (·.seeding) (step { st e1234 with port := [.issue ⟨0x00000011, 0⟩] }) = some true) :=
  ⟨⟨rfl, rfl⟩, rfl, rfl, rfl⟩

/-- A command for each check, and one that passes them all, in the mode each needs. -/
theorem witness_ChecksRunInTheirOrder :
    decode ⟨0, 0⟩ = .fault .illegal ∧ decode ⟨0x00004102, 0⟩ = .fault .bitsRange ∧
    (decode ⟨0x00000012, 1⟩ = .instr (.seqpush 1) ∧ (st e1234).seeding = false ∧ needsOpen (.seqpush 1) = true) ∧
    (decode ⟨0x00004002, 0⟩ = .instr (.bits 64) ∧ (stOpen e1234 5).seeding = true ∧ needsClosed (.bits 64) = true) ∧
    decode ⟨0x00000003, 0⟩ = .instr (.u64b 0) ∧
    (decode ⟨0x00000003, 1⟩ = .instr (.u64b 1) ∧ modeAllows (.u64b 1) (st e1234) ∧ Instr.u64b 1 ≠ .u64b 0) := by
  refine ⟨by decide, by decide, by decide, by decide, by decide, by decide, ⟨nofun, fun _ => rfl⟩, by decide⟩

/-- A command in each kind of state that its mode check passes. -/
theorem witness_EveryOtherCommandCompletes :
    ((st e1234).Inv ∧ (Instr.bits 64).wf = true ∧ (∀ mx, Instr.bits 64 ≠ .u64b mx) ∧ modeAllows (.bits 64) (st e1234)) ∧
    ((stOpen e1234 5).Inv ∧ (Instr.seqpush 1).wf = true ∧ (∀ mx, Instr.seqpush 1 ≠ .u64b mx) ∧
      modeAllows (.seqpush 1) (stOpen e1234 5)) :=
  ⟨⟨rfl, by decide, nofun, nofun, fun _ => rfl⟩, ⟨rfl, by decide, nofun, fun _ => rfl, nofun⟩⟩

/-- The all-zero state, operands of BITS at both ends, and a bound that is no power of two. -/
theorem witness_TheAllZeroStateIsAbsorbing :
    (st Engine.zero).seeding = false ∧ (st Engine.zero).engine = ⟨0, 0, 0, 0⟩ ∧ (0 : BitVec 8).toNat ≤ 64 ∧
    (64 : BitVec 8).toNat ≤ 64 ∧ (3 : Word) ≠ 0 ∧ ¬ ∃ k, (3 : Word).toNat = 2 ^ k :=
  have h := witness_BoundedDrawCompletesExactlyWhenADrawPasses
  ⟨h.1, h.2.1, by decide, by decide, h.2.2.2.2.2.1, h.2.2.2.2.2.2⟩

/-- A command, a word that is none, BITS out of range, no event, a second host, and a placed word with the greatest
ARG. -/
theorem witness_StepRunsTheDecodedCommand :
    ({ st e1234 with port := [.issue ⟨1, 0⟩] }.port = .issue ⟨1, 0⟩ :: [] ∧ decode ⟨1, 0⟩ = .instr .next) ∧
    decode ⟨0, 0⟩ = .fault .illegal ∧ decode ⟨0x00004102, 0⟩ = .fault .bitsRange ∧ (st e1234).port = [] ∧
    { st e1234 with port := [.secondHost ⟨1, 0⟩] }.port = .secondHost ⟨1, 0⟩ :: [] ∧
    (0x00030021 < 2 ^ 32 ∧ 0xFFFFFFFFFFFFFFFF < 2 ^ 64 ∧
      decode ⟨BitVec.ofNat 32 0x00030021, BitVec.ofNat 64 0xFFFFFFFFFFFFFFFF⟩ =
        .instr (.stwr 3 0xFFFFFFFFFFFFFFFF)) := by
  decide

end Sys2Proof.Tests
end

section
/-! PROOFS. 00_scope.md: the constant GAMMA (R9), the constraints of a configuration (R11), the rotations and the exact
product (R15, R16). -/

namespace Sys2Proof.Machine

open Sys2Proof

/-! ### 00_scope.md R15, R16: rotation and product -/

/-- The bit view of R15: bit i of the rotation by r comes from bit i - r, counted modulo 64. -/
theorem rotl_getLsbD (x : Word) {r i : Nat} (hr : r < 64) (hi : i < 64) :
    (rotl x r).getLsbD i = x.getLsbD ((i + (64 - r)) % 64) := by
  rw [rotl_eq_rotateLeft x hr, BitVec.getLsbD_rotateLeft, Nat.mod_eq_of_lt hr]
  by_cases hlow : i < r
  · have hidx : (i + (64 - r)) % 64 = 64 - r + i := by omega
    simp [hlow, hidx]
  · have hidx : (i + (64 - r)) % 64 = i - r := by omega
    simp [hlow, hi, hidx]

/-- Settles O3, by the bits of a rotation and the numbers of the product and its halves. -/
theorem rotationAndProductAreExact : Obligations.RotationAndProductAreExact := by
  refine ⟨fun x r _ hr => ⟨rfl, fun i hi => rotl_getLsbD x hr hi, rfl⟩, fun a b => ⟨mul128_toNat a b, ?_, ?_⟩⟩
  · rw [hi64_toNat, mul128_toNat]
  · rw [lo64_toNat, mul128_toNat]

/-! ### 00_scope.md R9: GAMMA -/

theorem gamma_toNat : Config.gamma.toNat = 0x9E3779B97F4A7C15 := rfl

/-- √5 between two neighbouring multiples of 2^-64, the lower one an odd multiple. Scaled by 2^63, they are the half
integer and the integer just above GAMMA + 2^63, so that both roundings of R9 follow. -/
theorem sqrt_five_bounds :
    ((2 ^ 64 + 2 * 0x9E3779B97F4A7C15 + 1) / 2 ^ 64 : ℝ) ≤ √5 ∧
      √5 < (2 ^ 64 + 2 * 0x9E3779B97F4A7C15 + 2) / 2 ^ 64 := by
  constructor
  · apply Real.le_sqrt_of_sq_le
    norm_num
  · rw [Real.sqrt_lt' (by norm_num)]
    norm_num

/-- The scaled fraction of the golden ratio lies in the upper half of the unit interval above GAMMA. -/
theorem scaled_golden_fraction_bounds :
    (Config.gamma.toNat : ℝ) + 1 / 2 ≤ (Real.goldenRatio - 1) * 2 ^ 64 ∧
      (Real.goldenRatio - 1) * 2 ^ 64 < (Config.gamma.toNat : ℝ) + 1 := by
  obtain ⟨hlow, hhigh⟩ := sqrt_five_bounds
  have hscale : (Real.goldenRatio - 1) * 2 ^ 64 = (√5 - 1) * 2 ^ 63 := by ring
  rw [hscale, gamma_toNat]
  push_cast
  constructor <;> linarith

theorem floor_scaled_golden_fraction : ⌊(Real.goldenRatio - 1) * 2 ^ 64⌋ = (Config.gamma.toNat : ℤ) := by
  obtain ⟨hlow, hhigh⟩ := scaled_golden_fraction_bounds
  rw [Int.floor_eq_iff, Int.cast_natCast]
  exact ⟨by linarith, hhigh⟩

theorem round_scaled_golden_fraction : round ((Real.goldenRatio - 1) * 2 ^ 64) = (Config.gamma.toNat : ℤ) + 1 := by
  obtain ⟨hlow, hhigh⟩ := scaled_golden_fraction_bounds
  rw [round_eq_iff, Set.mem_Ico]
  push_cast
  constructor <;> linarith

/-- Settles O1: the scaled fraction exceeds GAMMA by at least a half and by less than one. -/
theorem gammaIsTheTruncatedGoldenFraction : Obligations.GammaIsTheTruncatedGoldenFraction := by
  refine ⟨rfl, floor_scaled_golden_fraction, ?_, ?_⟩
  · rw [gamma_toNat]
  · rw [round_scaled_golden_fraction, gamma_toNat]
    norm_num

/-! ### 00_scope.md R11: bringing up a block -/

theorem powerOn_of_wf {c : Cfg} (h : c.wf = true) : powerOn c = .next (State.resetWith c) := if_pos h

theorem powerOn_of_not_wf {c : Cfg} (h : ¬ c.wf = true) : powerOn c = .refused .illFormedConfig := if_neg h

/-- Settles O2: powerOn decides by Cfg.wf, which is R11's conjunction. -/
theorem illFormedConfigurationIsRefused : Obligations.IllFormedConfigurationIsRefused := fun c =>
  ⟨fun h => powerOn_of_wf (c.wf_iff.mpr h), fun h => powerOn_of_not_wf (mt c.wf_iff.mp h)⟩

end Sys2Proof.Machine
end

section
/-! PROOFS. 10_state.md: the state after reset (R46). -/

namespace Sys2Proof.Machine

open Sys2Proof

/-! ### 10_state.md R46: the state after reset -/

namespace State

@[simp] theorem reset_engine : State.reset.engine = seedScalar Config.cfg 18914 := (rfl)
@[simp] theorem reset_acc : State.reset.acc = none := (rfl)
@[simp] theorem reset_code : State.reset.code = .ok := (rfl)
@[simp] theorem reset_seeding : State.reset.seeding = false := (rfl)
@[simp] theorem reset_sticky : State.reset.sticky = false := (rfl)
@[simp] theorem reset_res0 : State.reset.res0 = 0 := (rfl)
@[simp] theorem reset_res1 : State.reset.res1 = 0 := (rfl)

end State

/-- CODE = OK, SEEDING = 0 and STICKY = 0 read as the word 0 (10_state.md R36). -/
theorem BlockState.status_eq_zero {b : BlockState} (hcode : b.code = .ok) (hseeding : b.seeding = false)
    (hsticky : b.sticky = false) : b.status = 0 := by
  rw [BlockState.status, hcode, hseeding, hsticky]
  decide

/-- Seeding from one scalar, phase by phase (41_generator_engine.md R140). -/
theorem seedScalar_eq (c : Cfg) (x : Word) : seedScalar c x = burnIn (zeroCheck c (mixIn c (seedInit c) x).1) := by
  unfold seedScalar
  rw [finishSeeding]

/-- SEED leaves S as the protocol for its one scalar does, whatever the state it finds (41_generator_engine.md R148). -/
theorem exec_seed_engine (x : Word) (s : State) :
    ∃ t, exec (.seed x) s = .next t ∧ t.engine = seedScalar Config.cfg x :=
  ⟨_, execSeed_eq x s, rfl⟩

/-- Settles O49: S at reset is the one that seeding from 18914 leaves, by SEED's law and by the protocol's phases; the
other registers are read off the reset state. -/
theorem resetState : Obligations.ResetState := by
  refine ⟨fun s => ?_, ?_, State.reset_acc, State.reset_code, State.reset_seeding, State.reset_sticky, ?_,
    State.reset_res0, State.reset_res1⟩
  · obtain ⟨t, hexec, hengine⟩ := exec_seed_engine 18914 s
    exact ⟨t, hexec, State.reset_engine.trans hengine.symm⟩
  · exact State.reset_engine.trans (seedScalar_eq Config.cfg 18914)
  · exact BlockState.status_eq_zero State.reset_code State.reset_seeding State.reset_sticky

end Sys2Proof.Machine
end

section
/-! PROOFS. 30_encoding.md: which words decoding rejects (R82 to R84, R88, R89). -/

namespace Sys2Proof.Machine

open Sys2Proof

/-! ### 30_encoding.md R81: the fields as bit ranges of the word -/

theorem opcField_toNat_eq_iff (w : CmdWord) {n : Nat} (hn : n < 2 ^ 8) :
    (opcField w).toNat = n ↔ w.extractLsb' 0 8 = BitVec.ofNat 8 n := by
  rw [opcField, ← BitVec.toNat_inj, BitVec.toNat_ofNat, Nat.mod_eq_of_lt hn]

theorem idxField_eq_zero_iff (w : CmdWord) : idxField w = 0 ↔ w.extractLsb' 16 2 = 0 := by
  rw [idxField, Fin.ext_iff, ← BitVec.toNat_inj]
  rfl

/-! ### 30_encoding.md R89: decode, rule by rule -/

/-- R82. -/
theorem decode_of_rsv_ne_zero {c : Command} (h : rsvField c.word ≠ 0) : decode c = .fault .illegal := if_pos h

/-- R88. -/
theorem decode_of_unassigned {c : Command} (h : (opcField c.word).toNat ∉ assignedOpcodes) :
    decode c = .fault .illegal := by
  simp [decode, h]

/-- R83, the first unused field. -/
theorem decode_of_unused_imm8 {c : Command} (hopc : (opcField c.word).toNat ≠ 0x02) (h : imm8Field c.word ≠ 0) :
    decode c = .fault .illegal := by
  simp only [decode, if_neg hopc, if_pos h, if_pos (Or.inl h), ite_self]

/-- R83, the second unused field. -/
theorem decode_of_unused_idx {c : Command} (h20 : (opcField c.word).toNat ≠ 0x20)
    (h21 : (opcField c.word).toNat ≠ 0x21) (h : idxField c.word ≠ 0) : decode c = .fault .illegal := by
  simp [decode, h20, h21, h]

/-- R84: BITS with its unused bits 0 is decided by b alone. -/
theorem decode_bits {c : Command} (hrsv : rsvField c.word = 0) (hidx : idxField c.word = 0)
    (hopc : (opcField c.word).toNat = 0x02) :
    decode c = if 64 < (imm8Field c.word).toNat then .fault .bitsRange else .instr (.bits (imm8Field c.word)) := by
  simp [decode, hrsv, hidx, hopc, assignedOpcodes]

theorem decode_strd {c : Command} (hrsv : rsvField c.word = 0) (himm : imm8Field c.word = 0)
    (hopc : (opcField c.word).toNat = 0x20) : decode c = .instr (.strd (idxField c.word)) := by
  simp [decode, hrsv, himm, hopc, assignedOpcodes]

theorem decode_stwr {c : Command} (hrsv : rsvField c.word = 0) (himm : imm8Field c.word = 0)
    (hopc : (opcField c.word).toNat = 0x21) : decode c = .instr (.stwr (idxField c.word) c.arg) := by
  simp [decode, hrsv, himm, hopc, assignedOpcodes]

/-- A word with every field but OPC 0 is the command that its opcode names. -/
theorem decode_plain {c : Command} (hrsv : rsvField c.word = 0) (himm : imm8Field c.word = 0)
    (hidx : idxField c.word = 0) (hassigned : (opcField c.word).toNat ∈ assignedOpcodes)
    (h02 : (opcField c.word).toNat ≠ 0x02) (h20 : (opcField c.word).toNat ≠ 0x20)
    (h21 : (opcField c.word).toNat ≠ 0x21) : decode c = decodePlain (opcField c.word).toNat c.arg := by
  simp [decode, hrsv, himm, hidx, hassigned, h02, h20, h21]

/-- Each of the fourteen opcodes without IMM8 and IDX names a command (R87). -/
theorem decodePlain_eq_instr {opc : Nat} (arg : Word) (hassigned : opc ∈ assignedOpcodes) (h02 : opc ≠ 0x02)
    (h20 : opc ≠ 0x20) (h21 : opc ≠ 0x21) : ∃ i, decodePlain opc arg = .instr i := by
  simp only [assignedOpcodes, List.mem_cons, List.not_mem_nil, or_false, h02, h20, h21, false_or] at hassigned
  rcases hassigned with rfl | rfl | rfl | rfl | rfl | rfl | rfl | rfl | rfl | rfl | rfl | rfl | rfl | rfl <;>
    exact ⟨_, rfl⟩

/-! ### 30_encoding.md R82, R83, R84: the rejected words -/

/-- The words that R82, R88 and R83 make ILLEGAL, in that order. -/
def ReservedWord (w : CmdWord) : Prop :=
  rsvField w ≠ 0 ∨ (opcField w).toNat ∉ assignedOpcodes ∨
  ((opcField w).toNat ≠ 0x02 ∧ imm8Field w ≠ 0) ∨
  ((opcField w).toNat ≠ 0x20 ∧ (opcField w).toNat ≠ 0x21 ∧ idxField w ≠ 0)

/-- The words of BITS with b in 65..255 (R84). -/
def BitsOutOfRange (w : CmdWord) : Prop :=
  rsvField w = 0 ∧ idxField w = 0 ∧ (opcField w).toNat = 0x02 ∧ 64 < (imm8Field w).toNat

theorem decode_of_reservedWord {c : Command} (h : ReservedWord c.word) : decode c = .fault .illegal := by
  obtain hrsv | hopc | ⟨h02, himm⟩ | ⟨h20, h21, hidx⟩ := h
  · exact decode_of_rsv_ne_zero hrsv
  · exact decode_of_unassigned hopc
  · exact decode_of_unused_imm8 h02 himm
  · exact decode_of_unused_idx h20 h21 hidx

theorem decode_of_bitsOutOfRange {c : Command} (h : BitsOutOfRange c.word) : decode c = .fault .bitsRange := by
  obtain ⟨hrsv, hidx, hopc, hb⟩ := h
  rw [decode_bits hrsv hidx hopc, if_pos hb]

/-- Every other word is a command: by the opcode, which says the fields that are 0. -/
theorem decode_eq_instr {c : Command} (hres : ¬ ReservedWord c.word) (hrange : ¬ BitsOutOfRange c.word) :
    ∃ i, decode c = .instr i := by
  simp only [ReservedWord, not_or, not_and, not_not] at hres
  obtain ⟨hrsv, hassigned, himm, hidx⟩ := hres
  by_cases h02 : (opcField c.word).toNat = 0x02
  · have hidx0 := hidx (by omega) (by omega)
    have hb : ¬ 64 < (imm8Field c.word).toNat := fun hb => hrange ⟨hrsv, hidx0, h02, hb⟩
    exact ⟨_, (decode_bits hrsv hidx0 h02).trans (if_neg hb)⟩
  by_cases h20 : (opcField c.word).toNat = 0x20
  · exact ⟨_, decode_strd hrsv (himm h02) h20⟩
  by_cases h21 : (opcField c.word).toNat = 0x21
  · exact ⟨_, decode_stwr hrsv (himm h02) h21⟩
  obtain ⟨i, hi⟩ := decodePlain_eq_instr c.arg hassigned h02 h20 h21
  exact ⟨i, (decode_plain hrsv (himm h02) (hidx h20 h21) hassigned h02 h20 h21).trans hi⟩

/-- Of the three disjoint outcomes of decoding, ILLEGAL is that of the reserved words. -/
theorem decode_eq_illegal_iff (c : Command) : decode c = .fault .illegal ↔ ReservedWord c.word := by
  refine ⟨fun h => ?_, decode_of_reservedWord⟩
  by_contra hres
  by_cases hrange : BitsOutOfRange c.word
  · simp [decode_of_bitsOutOfRange hrange] at h
  · obtain ⟨i, hi⟩ := decode_eq_instr hres hrange
    simp [hi] at h

theorem decode_eq_bitsRange_iff (c : Command) : decode c = .fault .bitsRange ↔ BitsOutOfRange c.word := by
  refine ⟨fun h => ?_, decode_of_bitsOutOfRange⟩
  by_contra hrange
  by_cases hres : ReservedWord c.word
  · simp [decode_of_reservedWord hres] at h
  · obtain ⟨i, hi⟩ := decode_eq_instr hres hrange
    simp [hi] at h

/-- Settles O42, by the outcomes of decoding on its fields, read as bit ranges of the word. -/
theorem decodeRejectsExactlyTheReservedWords : Obligations.DecodeRejectsExactlyTheReservedWords := by
  refine fun w arg => ⟨(decode_eq_illegal_iff ⟨w, arg⟩).trans ?_, (decode_eq_bitsRange_iff ⟨w, arg⟩).trans ?_⟩
  · simp only [ReservedWord, ne_eq, idxField_eq_zero_iff, opcField_toNat_eq_iff w (n := 0x02) (by decide),
      opcField_toNat_eq_iff w (n := 0x20) (by decide), opcField_toNat_eq_iff w (n := 0x21) (by decide)]
    rfl
  · rw [BitsOutOfRange, idxField_eq_zero_iff, opcField_toNat_eq_iff w (n := 0x02) (by decide)]
    rfl

end Sys2Proof.Machine
end

section
/-! PROOFS. 40_seed_mixer.md: the mixer's formula and its properties (R110, R112), and the command MIX (R113) with the
words of an opcode that has no operand field (30_encoding.md R82, R83, R87). -/

namespace Sys2Proof.Machine

open Sys2Proof Sys2Proof.Claims

/-! ### 40_seed_mixer.md R110: the formula -/

theorem nextAcc_eq (acc : Word) : nextAcc acc = acc + 0x9E3779B97F4A7C15 := BitVec.add_comm Config.gamma acc

/-- Settles O4: the model's rounds are the rule's, and its increment is the rule's with the summands exchanged. -/
theorem mixerFollowsItsFormula : Obligations.MixerFollowsItsFormula := by
  intro c acc
  dsimp only
  rw [← nextAcc_eq]
  rfl

/-! ### 40_seed_mixer.md R112 (a): each part of the mixer is invertible -/

/-- The xor d of two words with one xor-shift satisfies d = d >>> r, and only 0 does. -/
theorem xorShift_injective {r : Nat} (hr : 1 ≤ r) : Function.Injective fun x => xorShift x r := by
  intro x y h
  have hshift : x ^^^ y = (x ^^^ y) >>> r := by
    rw [BitVec.ushiftRight_xor_distrib, ← BitVec.xor_eq_zero_iff]
    calc (x ^^^ y) ^^^ (x >>> r ^^^ y >>> r) = (x ^^^ x >>> r) ^^^ (y ^^^ y >>> r) := by ac_rfl
      _ = 0 := BitVec.xor_eq_zero_iff.mpr h
  have hdiv : (x ^^^ y).toNat = (x ^^^ y).toNat / 2 ^ r := by
    rw [← Nat.shiftRight_eq_div_pow, ← BitVec.toNat_ushiftRight, ← hshift]
  have hzero : (x ^^^ y).toNat = 0 := by
    by_contra hne
    exact (Nat.div_lt_self (Nat.pos_of_ne_zero hne) (Nat.one_lt_two_pow (by omega))).ne' hdiv
  exact BitVec.xor_eq_zero_iff.mp (BitVec.eq_of_toNat_eq hzero)

theorem mul_injective_of_odd {m : Word} (hm : m.toNat % 2 = 1) : Function.Injective fun x : Word => x * m := by
  intro x y h
  have hcoprime : Nat.Coprime (2 ^ 64) m.toNat := (Nat.coprime_two_left.mpr (Nat.odd_iff.mpr hm)).pow_left 64
  have hmod : x.toNat * m.toNat ≡ y.toNat * m.toNat [MOD 2 ^ 64] := by
    have hnat := congrArg BitVec.toNat h
    rwa [BitVec.toNat_mul, BitVec.toNat_mul] at hnat
  exact BitVec.eq_of_toNat_eq ((hmod.cancel_right_of_coprime hcoprime).eq_of_lt_of_lt x.isLt y.isLt)

theorem mixRounds_injective {c : Cfg} (h : c.wf = true) : Function.Injective (mixRounds c) := by
  obtain ⟨⟨hr1, _⟩, ⟨hr2, _⟩, ⟨hr3, _⟩, hm1, hm2, _, _⟩ := c.wf_iff.mp h
  exact (xorShift_injective hr3).comp <| (mul_injective_of_odd hm2).comp <| (xorShift_injective hr2).comp <|
    (mul_injective_of_odd hm1).comp (xorShift_injective hr1)

theorem mix_fst_bijective {c : Cfg} (h : c.wf = true) : Function.Bijective fun acc => (mix c acc).1 :=
  Finite.injective_iff_bijective.mp ((mixRounds_injective h).comp (add_right_injective Config.gamma))

/-! ### 40_seed_mixer.md R112 (b): output 0 -/

@[simp] theorem xorShift_zero (r : Nat) : xorShift 0 r = 0 := by simp [xorShift]

@[simp] theorem mixRounds_zero (c : Cfg) : mixRounds c 0 = 0 := by
  rw [mixRounds, xorShift_zero, zero_mul, xorShift_zero, zero_mul, xorShift_zero]

/-- 2^64 - GAMMA is the accumulator whose increment wraps to 0, under every configuration. -/
theorem mix_neg_gamma (c : Cfg) : mix c 0x61C8864680B583EB = (0, 0) := by
  have hwrap : nextAcc 0x61C8864680B583EB = 0 := by decide
  rw [mix, hwrap, mixRounds_zero]

theorem mix_fst_eq_zero_iff {c : Cfg} (h : c.wf = true) (acc : Word) :
    (mix c acc).1 = 0 ↔ acc = 0x61C8864680B583EB := by
  have hzero : (mix c 0x61C8864680B583EB).1 = 0 := congrArg Prod.fst (mix_neg_gamma c)
  rw [← hzero]
  exact (mix_fst_bijective h).injective.eq_iff

/-! ### 40_seed_mixer.md R112 (c): threading -/

theorem mix_snd_iterate (c : Cfg) (a : Word) (k : Nat) :
    (fun acc => (mix c acc).2)^[k] a = a + BitVec.ofNat 64 k * 0x9E3779B97F4A7C15 := by
  induction k with
  | zero => simp
  | succ k ih =>
    rw [Function.iterate_succ_apply', ih, mix_snd, nextAcc_eq, BitVec.ofNat_add, BitVec.add_mul, BitVec.one_mul,
      BitVec.add_assoc]

theorem ofNat_ne_ofNat_of_lt {j k : Nat} (hj : 1 ≤ j) (hjk : j < k) (hk : k ≤ 2 ^ 64) :
    BitVec.ofNat 64 j ≠ BitVec.ofNat 64 k := by
  intro h
  have := congrArg BitVec.toNat h
  simp only [BitVec.toNat_ofNat] at this
  omega

/-- GAMMA is odd, so equal accumulators would mean equal numbers of calls modulo 2^64. -/
theorem mix_snd_iterate_ne (c : Cfg) (a : Word) {j k : Nat} (hj : 1 ≤ j) (hjk : j < k) (hk : k ≤ 2 ^ 64) :
    (fun acc => (mix c acc).2)^[j] a ≠ (fun acc => (mix c acc).2)^[k] a := by
  rw [mix_snd_iterate, mix_snd_iterate]
  have hodd : (0x9E3779B97F4A7C15 : Word).toNat % 2 = 1 := by decide
  exact fun h => ofNat_ne_ofNat_of_lt hj hjk hk (mul_injective_of_odd hodd (add_right_injective a h))

/-- Settles O5: the parts of the mixer are injective on a finite type, and GAMMA is odd. -/
theorem mixerIsBijectiveAndThreadsTheAccumulator : Obligations.MixerIsBijectiveAndThreadsTheAccumulator :=
  fun c h => ⟨mix_fst_bijective h, mix_fst_eq_zero_iff h, mix_neg_gamma c, mix_snd_iterate c,
    fun a _ _ => mix_snd_iterate_ne c a⟩

/-! ### 30_encoding.md R82, R83: opcodes without an operand field -/

theorem imm8Field_eq_zero_iff (w : CmdWord) : imm8Field w = 0 ↔ w.toNat / 2 ^ 8 % 2 ^ 8 = 0 := by
  rw [imm8Field, ← BitVec.toNat_inj, BitVec.extractLsb'_toNat, Nat.shiftRight_eq_div_pow]
  rfl

theorem idxField_eq_zero_iff_toNat (w : CmdWord) : idxField w = 0 ↔ w.toNat / 2 ^ 16 % 2 ^ 2 = 0 := by
  rw [idxField_eq_zero_iff, ← BitVec.toNat_inj, BitVec.extractLsb'_toNat, Nat.shiftRight_eq_div_pow]
  rfl

theorem rsvField_eq_zero_iff (w : CmdWord) : rsvField w = 0 ↔ w.toNat / 2 ^ 18 % 2 ^ 14 = 0 := by
  rw [rsvField, ← BitVec.toNat_inj, BitVec.extractLsb'_toNat, Nat.shiftRight_eq_div_pow]
  rfl

/-- The word of an opcode with no other bit is the one whose other fields are 0. -/
theorem eq_zeroExtend_opcField_iff (w : CmdWord) :
    w = (opcField w).zeroExtend 32 ↔ imm8Field w = 0 ∧ idxField w = 0 ∧ rsvField w = 0 := by
  have hopc : ((opcField w).zeroExtend 32).toNat = w.toNat % 2 ^ 8 := by
    simp only [opcField, BitVec.truncate_eq_setWidth, BitVec.toNat_setWidth, BitVec.extractLsb'_toNat]
    omega
  rw [imm8Field_eq_zero_iff, idxField_eq_zero_iff_toNat, rsvField_eq_zero_iff, ← BitVec.toNat_inj, hopc]
  omega

/-- An opcode that names a command by itself takes all other bits 0, and no other word of that opcode is a command. -/
theorem encodedAlone_of_decodePlain {opc : BitVec 8} {i : Word → Instr} (hassigned : opc.toNat ∈ assignedOpcodes)
    (h02 : opc.toNat ≠ 0x02) (h20 : opc.toNat ≠ 0x20) (h21 : opc.toNat ≠ 0x21)
    (hplain : ∀ arg, decodePlain opc.toNat arg = .instr (i arg)) : EncodedAlone opc i := by
  intro w arg hopc
  have hopc : opcField w = opc := hopc
  subst hopc
  rw [ne_eq, eq_zeroExtend_opcField_iff]
  refine ⟨fun ⟨himm, hidx, hrsv⟩ => ?_, fun hfields => decode_of_reservedWord ?_⟩
  · exact (decode_plain (c := ⟨w, arg⟩) hrsv himm hidx hassigned h02 h20 h21).trans (hplain arg)
  · by_contra hres
    simp only [ReservedWord, not_or, not_and, not_not] at hres
    obtain ⟨hrsv, -, himm, hidx⟩ := hres
    exact hfields ⟨himm h02, hidx h20 h21, hrsv⟩

/-! ### 40_seed_mixer.md R113: MIX -/

theorem encodedAlone_mix : EncodedAlone 0x18 Instr.mix :=
  encodedAlone_of_decodePlain (by decide) (by decide) (by decide) (by decide) fun _ => rfl

theorem exec_mix (acc : Word) (s : State) :
    exec (.mix acc) s =
      .next { s with res0 := (mix Config.cfg acc).1, res1 := acc + 0x9E3779B97F4A7C15, code := .ok } := by
  rw [← nextAcc_eq]
  exact execMix_eq acc s

/-- The rule's example, under the reference defaults. -/
theorem mix_tc1_zero : mix tc1 0 = (0xE220A8397B1DCDAF, 0x9E3779B97F4A7C15) := by decide

/-- Settles O6: the words of the opcode, MIX's next state, and from it the corner cases, the fed-back accumulator and
the example. -/
theorem mixWritesOutputAndAccumulator : Obligations.MixWritesOutputAndAccumulator := by
  refine ⟨encodedAlone_mix, exec_mix, fun s => ?_, fun s => ⟨_, exec_mix _ s, ?_⟩,
    fun acc s => ⟨_, _, execMix_eq acc s, execMix_eq _ _, rfl, ?_⟩, fun s => ?_⟩
  · rw [exec_mix, mix_neg_gamma]
    rfl
  · rfl
  · rw [mix_snd, mix_snd, nextAcc_eq, nextAcc_eq]
    ring
  · rw [mixWith_eq, mix_tc1_zero]

end Sys2Proof.Machine
end

section
/-! PROOFS. 41_generator_engine.md: the step of the engine, its inverse and its linearity (R130 to R135), the commands
NEXT and DISCARD (R137 to R139), and the equality of engines (R152, R153). -/

namespace Sys2Proof.Machine

open Sys2Proof Sys2Proof.Claims

namespace Engine

theorem eq_iff_words (a b : Engine) : a = b ↔ a.s0 = b.s0 ∧ a.s1 = b.s1 ∧ a.s2 = b.s2 ∧ a.s3 = b.s3 := by
  cases a
  cases b
  rw [Engine.mk.injEq]

theorem eq_of_words {a b : Engine} (h0 : a.s0 = b.s0) (h1 : a.s1 = b.s1) (h2 : a.s2 = b.s2) (h3 : a.s3 = b.s3) :
    a = b := (eq_iff_words a b).mpr ⟨h0, h1, h2, h3⟩

/-! ### 41_generator_engine.md R130 to R133, R135: one step -/

theorem scramble_eq (x : Word) : scramble x = (x * 5).rotateLeft 7 * 9 := by
  rw [scramble, rotl_eq_rotateLeft _ (by decide)]
  rfl

theorem advance_eq (s0 s1 s2 s3 : Word) :
    advance ⟨s0, s1, s2, s3⟩ =
      ⟨s0 ^^^ s3 ^^^ s1, s1 ^^^ s2 ^^^ s0, s2 ^^^ s0 ^^^ (s1 <<< 17), (s3 ^^^ s1).rotateLeft 45⟩ :=
  eq_of_words (xor_assoc s0 s3 s1).symm (xor_assoc s1 s2 s0).symm rfl (rotl_eq_rotateLeft _ (by decide))

theorem step_eq (e : Engine) : e.step = (scramble e.s1, e.advance) := rfl

end Engine

/-- Settles O7, by the output and the new words of a step. -/
theorem engineStepFollowsTheSchedule : Obligations.EngineStepFollowsTheSchedule := fun s0 s1 s2 s3 => by
  rw [Engine.step_eq, Engine.scramble_eq, Engine.advance_eq]

/-- Settles O8: the output depends on the old s1 alone, so each clause is one value of the scrambler. -/
theorem outputExtremesAndTheZeroState : Obligations.OutputExtremesAndTheZeroState := by
  have hzero : Engine.scramble 0 = 0 := by decide
  have hones : Engine.scramble 0x4FC71C71C71C71C7 = 0xFFFFFFFFFFFFFFFF := by decide
  exact ⟨Prod.ext hzero Engine.advance_zero, fun _ _ _ => hzero, fun _ _ _ => hones⟩

/-! ### 41_generator_engine.md R134: the state map is a linear bijection -/

theorem rotl_rotl_cancel (x : Word) {r q : Nat} (hr : 0 < r) (hq : 0 < q) (hsum : r + q = 64) :
    rotl (rotl x r) q = x := by
  apply BitVec.eq_of_getLsbD_eq
  intro i hi
  have hindex : ((i + (64 - q)) % 64 + (64 - r)) % 64 = i := by omega
  rw [rotl_getLsbD _ (by omega) hi, rotl_getLsbD _ (by omega) (by omega), hindex]

theorem rotl_xor (x y : Word) {r : Nat} (hr : r < 64) : rotl (x ^^^ y) r = rotl x r ^^^ rotl y r := by
  apply BitVec.eq_of_getLsbD_eq
  intro i hi
  simp only [BitVec.getLsbD_xor, rotl_getLsbD _ hr hi]

namespace Engine

/-- The sum by which the rule recovers s1 from y = s1 xor (s1 << 17): a geometric series over GF(2). -/
def shiftSeries (y : Word) : Word := y ^^^ (y <<< 17) ^^^ (y <<< 34) ^^^ (y <<< 51)

/-- The series telescopes, and its last term is shifted out of the word. -/
theorem shiftSeries_xor_shift (x : Word) : shiftSeries (x ^^^ (x <<< 17)) = x := by
  have hout : x <<< 68 = 0 := BitVec.shiftLeft_eq_zero (by decide)
  simp only [shiftSeries, BitVec.shiftLeft_xor_distrib, ← BitVec.shiftLeft_add, hout]
  simp only [xor_assoc, xor_cancel_left, LawfulXor.xor_self, xor_zero]

theorem unstep_s0 (n : Engine) : n.unstep.s0 = n.s0 ^^^ rotl n.s3 19 := rfl
theorem unstep_s1 (n : Engine) : n.unstep.s1 = shiftSeries (n.s1 ^^^ n.s2) := rfl
theorem unstep_s2 (n : Engine) : n.unstep.s2 = n.s1 ^^^ n.unstep.s1 ^^^ n.unstep.s0 := rfl
theorem unstep_s3 (n : Engine) : n.unstep.s3 = rotl n.s3 19 ^^^ n.unstep.s1 := rfl

theorem unstep_advance (e : Engine) : e.advance.unstep = e := by
  have hrot : rotl e.advance.s3 19 = e.s3 ^^^ e.s1 := rotl_rotl_cancel _ (by decide) (by decide) (by decide)
  have hsum : e.advance.s1 ^^^ e.advance.s2 = e.s1 ^^^ (e.s1 <<< 17) := by
    rw [advance_s1, advance_s2, ← xor_assoc (e.s1 ^^^ (e.s2 ^^^ e.s0)), xor_cancel_right]
  have h0 : e.advance.unstep.s0 = e.s0 := by rw [unstep_s0, hrot, advance_s0, xor_cancel_right]
  have h1 : e.advance.unstep.s1 = e.s1 := by rw [unstep_s1, hsum, shiftSeries_xor_shift]
  refine eq_of_words h0 h1 ?_ ?_
  · rw [unstep_s2, h0, h1, advance_s1, xor_xor_cancel_comm, xor_cancel_right]
  · rw [unstep_s3, hrot, h1, xor_cancel_right]

theorem advance_bijective : Function.Bijective advance := by
  have hfinite : Finite Engine := Finite.of_injective (fun e => (e.s0, e.s1, e.s2, e.s3)) fun a b h => by
    simpa only [Prod.mk.injEq, ← eq_iff_words] using h
  exact Finite.injective_iff_bijective.mp (Function.LeftInverse.injective unstep_advance)

theorem advance_unstep (e : Engine) : e.unstep.advance = e :=
  Function.LeftInverse.rightInverse_of_surjective unstep_advance advance_bijective.surjective e

theorem xor_xor_xor_comm (a b c d : Word) : (a ^^^ b) ^^^ (c ^^^ d) = (a ^^^ c) ^^^ (b ^^^ d) := by ac_rfl

theorem advance_xorEngine (a b : Engine) : (xorEngine a b).advance = xorEngine a.advance b.advance := by
  have h31 := xor_xor_xor_comm a.s3 b.s3 a.s1 b.s1
  have h20 := xor_xor_xor_comm a.s2 b.s2 a.s0 b.s0
  have h17 := BitVec.shiftLeft_xor_distrib a.s1 b.s1 17
  have h45 := rotl_xor (a.s3 ^^^ a.s1) (b.s3 ^^^ b.s1) (r := 45) (by decide)
  refine eq_of_words ?_ ?_ ?_ ?_
  · dsimp only [xorEngine, advance_s0]
    rw [h31, xor_xor_xor_comm]
  · dsimp only [xorEngine, advance_s1]
    rw [h20, xor_xor_xor_comm]
  · dsimp only [xorEngine, advance_s2]
    rw [h20, h17, xor_xor_xor_comm]
  · dsimp only [xorEngine, advance_s3]
    rw [h31, h45]

end Engine

/-- Settles O9: unstep undoes advance, which is injective on finitely many states and so bijective. -/
theorem stateMapIsALinearBijection : Obligations.StateMapIsALinearBijection :=
  ⟨Engine.advance_bijective, fun e => ⟨e.unstep_advance, e.advance_unstep⟩, Engine.advance_xorEngine,
    Engine.advance_zero, fun _ n hne => mt (Engine.steps_eq_zero_iff n).mp hne⟩

/-! ### 41_generator_engine.md R137: NEXT -/

theorem Engine.steps_eq_self_of_zero {e : Engine} (h : e = Engine.zero) (n : Nat) : e.steps n = e := by
  rw [h, Engine.steps_of_zero]

theorem encodedAlone_next : EncodedAlone 0x01 (fun _ => .next) :=
  encodedAlone_of_decodePlain (by decide) (by decide) (by decide) (by decide) fun _ => rfl

theorem exec_next {s : State} (h : s.seeding = false) :
    exec .next s = .next { s with engine := s.engine.advance, res0 := s.engine.output, code := .ok } := execNext_eq h

/-- Settles O10: NEXT's next state in either mode, at the all-zero engine and at the rule's example. -/
theorem nextDrawsOnce : Obligations.NextDrawsOnce := by
  refine ⟨encodedAlone_next, ⟨rfl, rfl, rfl⟩, fun _ => exec_next, fun s hopen => sample_of_open hopen id,
    fun s hclosed hzero => ?_, fun s hclosed hengine => ?_⟩
  · have hzero : s.engine = Engine.zero := hzero
    have hout : s.engine.output = 0 := by rw [hzero, Engine.output_zero]
    have hadvance : s.engine.advance = s.engine := Engine.steps_eq_self_of_zero hzero 1
    rw [exec_next hclosed, hout, hadvance]
  · have hstep : Engine.step ⟨1, 2, 3, 4⟩ = (0x2D00, ⟨0x7, 0x0, 0x40002, 0x0000C00000000000⟩) := by decide
    rw [exec_next hclosed, hengine, Engine.output, Engine.advance, hstep]

/-! ### 41_generator_engine.md R138: DISCARD -/

theorem Engine.steps_eq_iterate (n : Nat) (e : Engine) : e.steps n = Engine.advance^[n] e := by
  induction n generalizing e with
  | zero => rfl
  | succ n ih => rw [Engine.steps_succ, ih, Function.iterate_succ_apply]

theorem encodedAlone_discard : EncodedAlone 0x08 Instr.discard :=
  encodedAlone_of_decodePlain (by decide) (by decide) (by decide) (by decide) fun _ => rfl

theorem exec_discard (n : Word) {s : State} (h : s.seeding = false) :
    exec (.discard n) s = .next { s with engine := s.engine.steps n.toNat, code := .ok } := execDiscard_eq n h

/-- Settles O11: DISCARD's next state in either mode, for no steps, at the all-zero engine and at the rule's example. -/
theorem discardStepsItsCount : Obligations.DiscardStepsItsCount := by
  refine ⟨encodedAlone_discard, fun n s hclosed => ?_, fun n s hopen => outsideSeeding_open_eq hopen _,
    fun s hclosed => exec_discard 0 hclosed, fun n s hclosed hzero => ?_, fun s hclosed hengine => ?_⟩
  · rw [exec_discard n hclosed, Engine.steps_eq_iterate]
  · rw [exec_discard n hclosed, Engine.steps_eq_self_of_zero hzero]
  · have hsteps : Engine.steps 3 ⟨1, 2, 3, 4⟩ =
        ⟨0x0000C00018040002, 0x0000C00000000007, 0x0000C008000E0002, 0x8000A00000000300⟩ := by decide
    have hcount : (3 : Word).toNat = 3 := by decide
    rw [exec_discard 3 hclosed, hengine, hcount, hsteps]

/-! ### 41_generator_engine.md R139: DISCARD and repeated NEXT -/

/-- NEXT commands in a row step the engine as often and write RES0 and CODE besides. -/
theorem repeatExec_next (n : Nat) {s : State} (h : s.seeding = false) :
    ∃ v k, repeatExec .next n s = .next { s with engine := s.engine.steps n, res0 := v, code := k } := by
  induction n generalizing s with
  | zero => exact ⟨s.res0, s.code, rfl⟩
  | succ n ih =>
    rw [repeatExec, exec_next h]
    exact ih h

/-- Settles O12, by the next states of both sides; counts that do not overflow add up as numbers. -/
theorem discardEqualsRepeatedNext : Obligations.DiscardEqualsRepeatedNext := by
  refine ⟨fun n s hclosed => ?_, fun a b s hclosed hsum => ⟨_, exec_discard a hclosed, ?_⟩⟩
  · obtain ⟨v, k, hrepeat⟩ := repeatExec_next n.toNat hclosed
    exact ⟨_, _, exec_discard n hclosed, hrepeat, rfl, rfl⟩
  · have hcount : (a + b).toNat = a.toNat + b.toNat := BitVec.toNat_add_of_lt hsum
    rw [exec_discard (a + b) hclosed, hcount, Engine.steps_add]
    exact exec_discard b hclosed

/-! ### 41_generator_engine.md R152, R153: equality of engines -/

/-- The all-zero state is the only one that steps to itself: s3 = s1 and s2 = s0, so s3 is 0, hence s1, hence s2. -/
theorem Engine.advance_eq_self_iff {e : Engine} : e.advance = e ↔ e = Engine.zero := by
  refine ⟨fun h => ?_, fun h => Engine.steps_eq_self_of_zero h 1⟩
  have h31 : e.s3 ^^^ e.s1 = 0 := xor_left_eq_self_iff.mp (congrArg Engine.s0 h)
  have h20 : e.s2 ^^^ e.s0 = 0 := xor_left_eq_self_iff.mp (congrArg Engine.s1 h)
  have h3 : e.s3 = 0 := by
    rw [← congrArg Engine.s3 h, Engine.advance_s3, h31]
    decide
  have h1 : e.s1 = 0 := by rw [← xor_eq_zero_iff.mp h31, h3]
  have h2 : e.s2 = 0 := by
    rw [← congrArg Engine.s2 h, Engine.advance_s2, h20, h1]
    decide
  have h0 : e.s0 = 0 := by rw [← xor_eq_zero_iff.mp h20, h2]
  exact Engine.eq_of_words h0 h1 h2 h3

theorem State.sameEngine_iff {s t : State} : s.sameEngine t = true ↔ s.engine = t.engine := decide_eq_true_iff

/-- Settles O20: no state but the all-zero one steps to itself. -/
theorem equalEnginesDifferAfterOneDraw : Obligations.EqualEnginesDifferAfterOneDraw := by
  refine ⟨fun s t => State.sameEngine_iff.trans (Engine.eq_iff_words _ _),
    fun s t hsame hne hclosed => ⟨_, exec_next hclosed, ?_⟩, fun s hzero hclosed => ⟨_, exec_next hclosed, ?_⟩⟩
  · rw [State.sameEngine_iff] at hsame
    rw [← Bool.not_eq_true, State.sameEngine_iff, ← hsame]
    exact mt Engine.advance_eq_self_iff.mp hne
  · exact State.sameEngine_iff.mpr (Engine.advance_eq_self_iff.mpr hzero)

end Sys2Proof.Machine
end

section
/-! PROOFS. 41_generator_engine.md: the seeding protocol (R141 to R144, R150) and the commands SEQBEGIN, SEQEND and SEED
(R145, R147, R148). -/

namespace Sys2Proof.Machine

open Sys2Proof Sys2Proof.Claims

/-! ### 41_generator_engine.md R141 to R144: the phases of seeding -/

theorem burnIn_eq_iterate (e : Engine) : burnIn e = Engine.advance^[256] e := Engine.steps_eq_iterate 256 e

theorem zeroCheck_zero (c : Cfg) : zeroCheck c ⟨0, 0, 0, 0⟩ = ⟨0, c.zeroFallback, 0, 0⟩ :=
  (zeroCheck_eq c _).trans (if_pos rfl)

theorem zeroCheck_of_ne {c : Cfg} {e : Engine} (h : e ≠ ⟨0, 0, 0, 0⟩) : zeroCheck c e = e :=
  (zeroCheck_eq c e).trans (if_neg h)

/-- Settles O13, phase by phase. -/
theorem seedingPhases : Obligations.SeedingPhases := fun c =>
  ⟨rfl, mixIn_eq c, zeroCheck_zero c, fun _ => zeroCheck_of_ne, burnIn_eq_iterate⟩

/-! ### 41_generator_engine.md R145: SEQBEGIN -/

theorem encodedAlone_seqbegin : EncodedAlone 0x11 (fun _ => .seqbegin) :=
  encodedAlone_of_decodePlain (by decide) (by decide) (by decide) (by decide) fun _ => rfl

theorem exec_seqbegin (s : State) :
    exec .seqbegin s =
      .next { s with engine := (seedInit Config.cfg).1, acc := some (seedInit Config.cfg).2, seeding := true,
                     code := .ok } := execSeqbegin_eq s

theorem exec_strd (i : Fin 4) (s : State) :
    exec (.strd i) s = .next { s with res0 := s.engine.get i, code := .ok } := execStrd_eq i s

theorem exec_seqpush (x : Word) {a : Word} {s : State} (h : s.seeding = true) (ha : s.acc = some a) :
    exec (.seqpush x) s =
      .next { s with engine := (mixIn Config.cfg (s.engine, a) x).1,
                     acc := some (mixIn Config.cfg (s.engine, a) x).2, code := .ok } := execSeqpush_eq x h ha

/-- Pushes in a row mix their scalars in, in order. -/
theorem pushAll_engine (xs : List Word) {a : Word} {s : State} (h : s.seeding = true) (ha : s.acc = some a) :
    ∃ t, pushAll xs s = .next t ∧ t.engine = (xs.foldl (mixIn Config.cfg) (s.engine, a)).1 := by
  induction xs generalizing s a with
  | nil => exact ⟨s, rfl, rfl⟩
  | cons x xs ih =>
    rw [pushAll, exec_seqpush x h ha]
    exact ih h rfl

theorem seedInit_get (c : Cfg) (i : Fin 4) :
    (seedInit c).1.get i = [c.init0, c.init1, c.init2, c.init3][i.val]! := by
  fin_cases i <;> rfl

/-- Settles O14, by the next states of SEQBEGIN, of the pushes and of STRD. -/
theorem seqbeginOpensASequence : Obligations.SeqbeginOpensASequence := by
  refine ⟨encodedAlone_seqbegin, exec_seqbegin,
    fun i s => ⟨_, _, exec_seqbegin s, exec_strd i _, seedInit_get Config.cfg i⟩, fun i xs s => ?_⟩
  obtain ⟨t, hpush, hengine⟩ := pushAll_engine xs (s := { s with
    engine := (seedInit Config.cfg).1, acc := some (seedInit Config.cfg).2, seeding := true, code := .ok }) rfl rfl
  exact ⟨_, t, _, exec_seqbegin s, hpush, exec_strd i t, congrArg (Engine.get · i) hengine⟩

/-! ### 41_generator_engine.md R147: SEQEND -/

theorem encodedAlone_seqend : EncodedAlone 0x13 (fun _ => .seqend) :=
  encodedAlone_of_decodePlain (by decide) (by decide) (by decide) (by decide) fun _ => rfl

theorem exec_seqend {s : State} (h : s.seeding = true) :
    exec .seqend s =
      .next { s with engine := burnIn (zeroCheck Config.cfg s.engine), acc := none, seeding := false, code := .ok } := by
  rw [← finishSeeding]
  exact execSeqend_eq h

/-- The rule's example: the empty sequence under TC1, whose INIT is all-zero, so that ZeroCheck substitutes. -/
theorem finishSeeding_tc1_seedInit :
    finishSeeding tc1 (seedInit tc1).1 =
      ⟨0xBF638FEA7303E187, 0x08E64352F6C6DC95, 0x809FE9AF969D7452, 0x4139618274C84C3B⟩ := by
  decide +kernel

/-- Settles O16, by the next states of SEQEND and of SEQBEGIN before it. The projections of those states are reduced
before two engines are compared, or the unifier would unfold BurnIn's 256 steps; O17 and O19 do the same. -/
theorem seqendClosesTheSequence : Obligations.SeqendClosesTheSequence := 
by
  refine ⟨encodedAlone_seqend, fun _ => exec_seqend, fun _ hclosed => insideSeeding_closed_eq hclosed _,
    fun s => ⟨_, _, exec_seqbegin s, exec_seqend rfl, rfl, ?_⟩,
    fun s => ⟨_, _, seqbeginWith_eq tc1 s, seqendWith_eq tc1 rfl, ?_⟩⟩
  · dsimp only [seedInit]
  · dsimp only
    exact finishSeeding_tc1_seedInit

/-! ### 41_generator_engine.md R148: SEED -/

theorem encodedAlone_seed : EncodedAlone 0x10 Instr.seed :=
  encodedAlone_of_decodePlain (by decide) (by decide) (by decide) (by decide) fun _ => rfl

theorem exec_seed (x : Word) (s : State) :
    exec (.seed x) s =
      .next { s with engine := burnIn (zeroCheck Config.cfg (mixIn Config.cfg (seedInit Config.cfg) x).1),
                     acc := none, seeding := false, code := .ok } := by
  rw [← seedScalar_eq]
  exact execSeed_eq x s

/-- Settles O17: SEED and the sequence of its one scalar run the same phases, and reset is seeded from 18914. -/
theorem seedRunsTheWholeProtocol : Obligations.SeedRunsTheWholeProtocol := by
  refine ⟨encodedAlone_seed, exec_seed,
    fun x s => ⟨_, _, _, _, exec_seqbegin s, exec_seqpush x rfl rfl, exec_seqend rfl, exec_seed x s, ?_⟩, fun s => ?_⟩
  · dsimp only
  · obtain ⟨t, hseed, hengine⟩ := exec_seed_engine 18914 s
    exact ⟨t, hseed, hengine.trans State.reset_engine.symm⟩

/-! ### 41_generator_engine.md R150: a seeded engine is not all-zero -/

theorem burnIn_zeroCheck_ne_zero {c : Cfg} (h : c.wf = true) (e : Engine) : burnIn (zeroCheck c e) ≠ ⟨0, 0, 0, 0⟩ :=
  finishSeeding_ne_zero h e

/-- Settles O19: every seeding ends in ZeroCheck and BurnIn, which leave no all-zero state. -/
theorem seededEngineIsNeverZero : Obligations.SeededEngineIsNeverZero := by
  refine ⟨fun x s => ⟨_, exec_seed x s, ?_⟩, fun s hopen => ⟨_, exec_seqend hopen, ?_⟩,
    fun c xs hwf => finishSeeding_ne_zero hwf _⟩
  · dsimp only
    exact burnIn_zeroCheck_ne_zero Config.cfg_wf (mixIn Config.cfg (seedInit Config.cfg) x).1
  · dsimp only
    exact burnIn_zeroCheck_ne_zero Config.cfg_wf s.engine

end Sys2Proof.Machine
end

section
/-! PROOFS. 42_sampling.md: the truncations of a draw, BITS, U32 and U32P (R171, R172, R178, R179). -/

namespace Sys2Proof.Machine

open Sys2Proof Sys2Proof.Claims

/-! ### 42_sampling.md R171, R178, R179: the parts of a draw -/

theorem bitsFn_zero (x : Word) : bitsFn x 0 = 0 := if_pos rfl

theorem bitsFn_of_pos (x : Word) {b : Nat} (h : 1 ≤ b) : bitsFn x b = x >>> (64 - b) := if_neg (by omega)

theorem bitsFn_64 (x : Word) : bitsFn x 64 = x := BitVec.ushiftRight_zero x

theorem bitsFn_toNat_lt (x : Word) {b : Nat} (h : b ≤ 64) : (bitsFn x b).toNat < 2 ^ b := by
  obtain rfl | hpos := Nat.eq_zero_or_pos b
  · simp [bitsFn_zero]
  · have hsplit : 2 ^ b * 2 ^ (64 - b) = 2 ^ 64 := by rw [← Nat.pow_add, Nat.add_sub_cancel' h]
    rw [bitsFn_of_pos x hpos, BitVec.toNat_ushiftRight, Nat.shiftRight_eq_div_pow,
      Nat.div_lt_iff_lt_mul (by positivity), hsplit]
    exact x.isLt

theorem high32_eq (x : Word) : high32 x = x >>> 32 := by
  apply BitVec.eq_of_toNat_eq
  have := x.isLt
  simp only [high32, BitVec.truncate_eq_setWidth, BitVec.toNat_setWidth, BitVec.extractLsb'_toNat,
    BitVec.toNat_ushiftRight, Nat.shiftRight_eq_div_pow]
  omega

theorem low32_eq (x : Word) : low32 x = x &&& 0x00000000FFFFFFFF := by
  apply BitVec.eq_of_toNat_eq
  have hmask : (0x00000000FFFFFFFF : Word).toNat = 2 ^ 32 - 1 := rfl
  rw [BitVec.toNat_and, hmask, Nat.and_two_pow_sub_one_eq_mod]
  simp only [low32, BitVec.truncate_eq_setWidth, BitVec.toNat_setWidth, BitVec.extractLsb'_toNat, Nat.shiftRight_zero]
  omega

theorem high32_eq_bitsFn : high32 = fun x => bitsFn x 32 :=
  funext fun x => (high32_eq x).trans (bitsFn_of_pos x (b := 32) (by decide)).symm

theorem extractLsb'_zeroExtend (x : BitVec 32) : (x.zeroExtend 64).extractLsb' 0 32 = x := by
  apply BitVec.eq_of_toNat_eq
  have := x.isLt
  simp only [BitVec.truncate_eq_setWidth, BitVec.extractLsb'_toNat, BitVec.toNat_setWidth, Nat.shiftRight_zero]
  omega

theorem high32_append_low32 (x : Word) : (high32 x).extractLsb' 0 32 ++ (low32 x).extractLsb' 0 32 = x := by
  rw [high32, low32, extractLsb'_zeroExtend, extractLsb'_zeroExtend]
  exact BitVec.extractLsb'_append_extractLsb'

/-! ### 42_sampling.md R171: BITS -/

/-- IDX and RSV together are the upper half of the word. -/
theorem extractLsb'_16_16_eq_zero_iff (w : CmdWord) :
    w.extractLsb' 16 16 = 0 ↔ idxField w = 0 ∧ rsvField w = 0 := by
  rw [idxField_eq_zero_iff_toNat, rsvField_eq_zero_iff, ← BitVec.toNat_inj, BitVec.extractLsb'_toNat,
    Nat.shiftRight_eq_div_pow]
  have hzero : (0 : BitVec 16).toNat = 0 := rfl
  omega

theorem runCommand_of_fault {c : Command} {f : DecodeFault} (h : decode c = .fault f) (s : State) :
    runCommand c s = .next (s.takeFault (faultCode f)) := by
  rw [runCommand, runCommandBy, h]
  rfl

/-- BITS's words: its unused bits, and b in and out of range. -/
theorem decode_bits_word (w : CmdWord) (arg : Word) (hopc : w.extractLsb' 0 8 = 0x02) :
    (w.extractLsb' 16 16 ≠ 0 → decode ⟨w, arg⟩ = .fault .illegal) ∧
    (w.extractLsb' 16 16 = 0 → (w.extractLsb' 8 8).toNat ≤ 64 →
      decode ⟨w, arg⟩ = .instr (.bits (w.extractLsb' 8 8))) ∧
    (w.extractLsb' 16 16 = 0 → 64 < (w.extractLsb' 8 8).toNat → decode ⟨w, arg⟩ = .fault .bitsRange) := by
  have hopc : (opcField w).toNat = 0x02 := (opcField_toNat_eq_iff w (by decide)).mpr hopc
  rw [ne_eq, extractLsb'_16_16_eq_zero_iff]
  refine ⟨fun hunused => ?_, fun ⟨hidx, hrsv⟩ hb => ?_, fun ⟨hidx, hrsv⟩ hb => ?_⟩
  · by_cases hidx : idxField w = 0
    · exact decode_of_rsv_ne_zero fun hrsv => hunused ⟨hidx, hrsv⟩
    · exact decode_of_unused_idx (c := ⟨w, arg⟩) (by simp [hopc]) (by simp [hopc]) hidx
  · exact (decode_bits (c := ⟨w, arg⟩) hrsv hidx hopc).trans (if_neg (Nat.not_lt.mpr hb))
  · exact (decode_bits (c := ⟨w, arg⟩) hrsv hidx hopc).trans (if_pos hb)

theorem exec_bits_eq_sample {b : BitVec 8} (hb : b.toNat ≤ 64) (s : State) :
    exec (.bits b) s = sample (fun x => bitsFn x b.toNat) s := if_neg (Nat.not_lt.mpr hb)

theorem exec_bits {b : BitVec 8} (hb : b.toNat ≤ 64) {s : State} (h : s.seeding = false) :
    exec (.bits b) s =
      .next { s with engine := s.engine.advance, res0 := bitsFn s.engine.output b.toNat, code := .ok } :=
  execBits_eq hb h

theorem exec_bits_res0_lt {b : BitVec 8} (hb : b.toNat ≤ 64) {s : State} (h : s.seeding = false) :
    ∃ t, exec (.bits b) s = .next t ∧ t.res0.toNat < 2 ^ b.toNat :=
  ⟨_, exec_bits hb h, bitsFn_toNat_lt s.engine.output hb⟩

theorem exec_bits_64 (s : State) : exec (.bits 64) s = exec .next s :=
  (exec_bits_eq_sample (by decide) s).trans (congrArg (sample · s) (funext bitsFn_64))

theorem exec_u32_eq_bits_32 (s : State) : exec .u32 s = exec (.bits 32) s :=
  (congrArg (sample · s) high32_eq_bitsFn).trans (exec_bits_eq_sample (b := 32) (by decide) s).symm

/-- The result of BITS for a known draw. -/
theorem exec_bits_res0_of_output {b : BitVec 8} (hb : b.toNat ≤ 64) {s : State} (h : s.seeding = false) {x v : Word}
    (hout : s.engine.output = x) (hvalue : bitsFn x b.toNat = v) : ∃ t, exec (.bits b) s = .next t ∧ t.res0 = v :=
  ⟨_, exec_bits hb h, (congrArg (bitsFn · b.toNat) hout).trans hvalue⟩

/-- Settles O21, by the outcomes of decoding, BITS as a sampling command, and the truncation's values. -/
theorem bitsTruncatesADraw : Obligations.BitsTruncatesADraw := by
  refine ⟨fun w arg hopc => ?_, fun b s hpos hb hclosed => ?_, fun s hclosed => exec_bits (by decide) hclosed,
    exec_bits_64, fun b s hb hopen => ?_, fun b s hb hclosed => exec_bits_res0_lt hb hclosed,
    fun s hclosed hout => ⟨?_, ?_, ?_, ?_⟩⟩
  · obtain ⟨hillegal, hinstr, hrange⟩ := decode_bits_word w arg hopc
    exact ⟨hillegal, hinstr, fun hunused hb s => runCommand_of_fault (hrange hunused hb) s⟩
  · rw [exec_bits hb hclosed, bitsFn_of_pos _ hpos]
    rfl
  · exact (exec_bits_eq_sample hb s).trans (sample_of_open hopen _)
  all_goals exact exec_bits_res0_of_output (by decide) hclosed hout (by decide)

/-! ### 42_sampling.md R172: identities of the truncations -/

/-- Settles O22: BITS 64 and NEXT are one command, BITS 32 and U32 another. -/
theorem truncationIdentities : Obligations.TruncationIdentities := by
  refine ⟨fun s hclosed => ?_, fun s hclosed => ?_, fun b s hb hclosed => exec_bits_res0_lt hb hclosed⟩
  · have hnext := exec_next hclosed
    exact ⟨_, _, (exec_bits_64 s).trans hnext, hnext, rfl, rfl⟩
  · have hbits := exec_bits (b := 32) (by decide) hclosed
    exact ⟨_, _, hbits, (exec_u32_eq_bits_32 s).trans hbits, rfl, rfl⟩

/-! ### 42_sampling.md R178: U32 -/

theorem encodedAlone_u32 : EncodedAlone 0x04 (fun _ => .u32) :=
  encodedAlone_of_decodePlain (by decide) (by decide) (by decide) (by decide) fun _ => rfl

theorem exec_u32 {s : State} (h : s.seeding = false) :
    exec .u32 s = .next { s with engine := s.engine.advance, res0 := s.engine.output >>> 32, code := .ok } := by
  rw [← high32_eq]
  exact execU32_eq h

/-- Settles O27, by U32's next state and its identity with BITS 32, which bounds the result. -/
theorem u32ReturnsTheHighHalf : Obligations.U32ReturnsTheHighHalf := by
  refine ⟨encodedAlone_u32, fun _ => exec_u32, fun s t hclosed h => ?_, exec_u32_eq_bits_32,
    fun s hopen => sample_of_open hopen high32, fun s hclosed hout => ⟨_, exec_u32 hclosed, ?_⟩⟩
  · obtain ⟨u, hu, hlt⟩ := exec_bits_res0_lt (b := 32) (by decide) hclosed
    rw [exec_u32_eq_bits_32, hu] at h
    cases h
    exact hlt
  · exact congrArg (fun x : Word => x >>> 32) hout

/-! ### 42_sampling.md R179: U32P -/

theorem encodedAlone_u32p : EncodedAlone 0x05 (fun _ => .u32p) :=
  encodedAlone_of_decodePlain (by decide) (by decide) (by decide) (by decide) fun _ => rfl

theorem exec_u32p {s : State} (h : s.seeding = false) :
    exec .u32p s =
      .next { s with engine := s.engine.advance, res0 := low32 s.engine.output, res1 := high32 s.engine.output,
                     code := .ok } := execU32p_eq h

/-- Settles O28, by U32P's next state and the halves of its draw. -/
theorem u32pReturnsBothHalves : Obligations.U32pReturnsBothHalves := by
  refine ⟨encodedAlone_u32p, fun s hclosed => ?_, fun s hclosed => ⟨_, exec_u32p hclosed, ?_⟩,
    fun s hopen => outsideSeeding_open_eq hopen _, fun s hclosed hout => ⟨_, exec_u32p hclosed, ?_, ?_⟩⟩
  · rw [exec_u32p hclosed, low32_eq, high32_eq]
    rfl
  · exact high32_append_low32 s.engine.output
  · exact congrArg low32 hout
  · exact congrArg high32 hout

end Sys2Proof.Machine
end

section
/-! PROOFS. 42_sampling.md: the bounded draw U64B, its rejection threshold (R173 to R177) and when it completes (R270). -/

namespace Sys2Proof.Machine

open Sys2Proof Sys2Proof.Claims

/-! ### 42_sampling.md R174: the rejection threshold -/

theorem threshold_toNat {mx : Word} (h : mx ≠ 0) : (threshold mx).toNat = (2 ^ 64 - mx.toNat) % mx.toNat := by
  have hpos := BitVec.toNat_pos_of_ne_zero h
  have hneg : (0 - mx).toNat = 2 ^ 64 - mx.toNat := by
    rw [zero_sub, BitVec.toNat_neg]
    exact Nat.mod_eq_of_lt (by omega)
  rw [threshold, BitVec.toNat_umod, hneg]

theorem threshold_toNat_eq_mod {mx : Word} (h : mx ≠ 0) : (threshold mx).toNat = 2 ^ 64 % mx.toNat :=
  (threshold_toNat h).trans (Nat.mod_eq_sub_mod mx.isLt.le).symm

theorem threshold_eq_zero_iff_dvd {mx : Word} (h : mx ≠ 0) : threshold mx = 0 ↔ mx.toNat ∣ 2 ^ 64 := by
  rw [Nat.dvd_iff_mod_eq_zero, ← threshold_toNat_eq_mod h, ← BitVec.toNat_inj]
  rfl

theorem threshold_eq_zero_iff_pow {mx : Word} (h : mx ≠ 0) : threshold mx = 0 ↔ ∃ k, mx.toNat = 2 ^ k := by
  rw [threshold_eq_zero_iff_dvd h, Nat.dvd_prime_pow Nat.prime_two]
  refine ⟨fun ⟨k, _, hk⟩ => ⟨k, hk⟩, fun ⟨k, hk⟩ => ⟨k, ?_, hk⟩⟩
  have hlt : 2 ^ k < 2 ^ 64 := hk ▸ mx.isLt
  exact ((Nat.pow_lt_pow_iff_right (by decide)).mp hlt).le

/-- Settles O24, by the threshold as the remainder of 2^64. -/
theorem rejectionThresholdFacts : Obligations.RejectionThresholdFacts :=
  ⟨fun _ h => ⟨threshold_toNat h, threshold_toNat_eq_mod h, threshold_lt h, threshold_eq_zero_iff_dvd h,
    threshold_eq_zero_iff_pow h⟩, by decide, by decide, by decide, by decide⟩

/-! ### 42_sampling.md R173: the product of a draw and a bound -/

theorem hi64_mul128_lt (x : Word) {mx : Word} (h : mx ≠ 0) : hi64 (mul128 x mx) < mx := by
  rw [BitVec.lt_def, hi64_toNat, mul128_toNat, Nat.div_lt_iff_lt_mul (by decide), Nat.mul_comm]
  exact Nat.mul_lt_mul_of_pos_left x.isLt (BitVec.toNat_pos_of_ne_zero h)

theorem twoPow_toNat {p : Nat} (h : p < 64) : (BitVec.twoPow 64 p).toNat = 2 ^ p := by
  rw [BitVec.toNat_twoPow]
  exact Nat.mod_eq_of_lt (Nat.pow_lt_pow_right (by decide) h)

theorem twoPow_ne_zero {p : Nat} (h : p < 64) : BitVec.twoPow 64 p ≠ 0 := by
  rw [ne_eq, ← BitVec.toNat_inj, twoPow_toNat h]
  exact (Nat.two_pow_pos p).ne'

theorem hi64_mul128_twoPow (x : Word) {p : Nat} (h : p < 64) :
    hi64 (mul128 x (BitVec.twoPow 64 p)) = x >>> (64 - p) := by
  have hsplit : 2 ^ 64 = 2 ^ (64 - p) * 2 ^ p := by rw [← Nat.pow_add, Nat.sub_add_cancel h.le]
  apply BitVec.eq_of_toNat_eq
  rw [hi64_toNat, mul128_toNat, twoPow_toNat h, BitVec.toNat_ushiftRight, Nat.shiftRight_eq_div_pow, hsplit,
    Nat.mul_div_mul_right _ _ (by positivity)]

theorem lo64_mul128_one (mx : Word) : lo64 (mul128 1 mx) = mx := by
  apply BitVec.eq_of_toNat_eq
  have hone : (1 : Word).toNat = 1 := rfl
  rw [lo64_toNat, mul128_toNat, hone, Nat.one_mul]
  exact Nat.mod_eq_of_lt mx.isLt

theorem mul128_zero_left (mx : Word) : mul128 0 mx = 0 := BitVec.zero_mul

/-! ### 42_sampling.md R173, R175, R176: which draws are accepted -/

theorem not_rejected_iff {mx : Word} {e : Engine} {j : Nat} :
    ¬ Rejected mx e j ↔ (0 - mx) % mx ≤ lo64 (product mx e j) := BitVec.not_lt

/-- The fast path accepts a draw that the loop's test would accept too. -/
theorem not_rejected_of_fast_path {mx : Word} {e : Engine} (h : mx ≠ 0) (hfast : mx ≤ lo64 (product mx e 0)) :
    ¬ Rejected mx e 0 :=
  not_rejected_iff.mpr (BitVec.le_trans (BitVec.le_of_lt (threshold_lt h)) hfast)

/-- U64B's acceptance as the rule puts it, with its fast path, is that some draw is not rejected. -/
theorem some_draw_passes_iff {mx : Word} {e : Engine} (h : mx ≠ 0) :
    (mx ≤ lo64 (product mx e 0) ∨ ∃ j, (0 - mx) % mx ≤ lo64 (product mx e j)) ↔ ∃ j, ¬ Rejected mx e j := by
  simp only [not_rejected_iff, or_iff_right_iff_imp]
  exact fun hfast => ⟨0, not_rejected_iff.mp (not_rejected_of_fast_path h hfast)⟩

theorem not_rejected_of_threshold_zero {mx : Word} (h : threshold mx = 0) (e : Engine) (j : Nat) :
    ¬ Rejected mx e j := by
  rw [Rejected, h]
  exact BitVec.not_lt_zero

theorem not_rejected_of_output_one {mx : Word} {e : Engine} {j : Nat} (h : mx ≠ 0) (hout : (e.steps j).output = 1) :
    ¬ Rejected mx e j := by
  rw [not_rejected_iff, product, hout, lo64_mul128_one]
  exact BitVec.le_of_lt (threshold_lt h)

/-- From the all-zero state every product is 0. -/
theorem product_zero (mx : Word) (j : Nat) : product mx Engine.zero j = 0 := by
  rw [product, Engine.steps_of_zero, Engine.output_zero, mul128_zero_left]

theorem rejected_zero {mx : Word} (h : threshold mx ≠ 0) (j : Nat) : Rejected mx Engine.zero j := by
  by_contra hacc
  rw [not_rejected_iff, product_zero] at hacc
  exact h (BitVec.le_zero_iff.mp hacc)

/-! ### 42_sampling.md R173, R176, R177: what U64B does -/

theorem encodedAlone_u64b : EncodedAlone 0x03 Instr.u64b :=
  encodedAlone_of_decodePlain (by decide) (by decide) (by decide) (by decide) fun _ => rfl

section closed

variable {mx : Word} {s : State} (hclosed : s.seeding = false) (hmx : mx ≠ 0)

include hclosed hmx

theorem exec_u64b_of_accepted {k : Nat} (hrej : ∀ j < k, Rejected mx s.engine j) (hacc : ¬ Rejected mx s.engine k) :
    exec (.u64b mx) s =
      .next { s with engine := s.engine.steps (k + 1), res0 := hi64 (product mx s.engine k), code := .ok } :=
  execU64b_of_some hclosed hmx (boundedDraw_of_accepted hmx hrej hacc)

theorem exec_u64b_of_first_accepted (hacc : ¬ Rejected mx s.engine 0) :
    exec (.u64b mx) s =
      .next { s with engine := s.engine.advance, res0 := hi64 (mul128 s.engine.output mx), code := .ok } :=
  exec_u64b_of_accepted hclosed hmx (fun _ hj => absurd hj (Nat.not_lt_zero _)) hacc

theorem exec_u64b_of_rejected (hall : ∀ j, Rejected mx s.engine j) : exec (.u64b mx) s = .fault .u64bDiverges :=
  execU64b_of_none hclosed hmx (boundedDraw_of_rejected hmx hall)

/-- A completed U64B took its value from the first draw that is not rejected. -/
theorem exec_u64b_next {t : State} (h : exec (.u64b mx) s = .next t) :
    ∃ k, ¬ Rejected mx s.engine k ∧ t.res0 = hi64 (product mx s.engine k) := by
  obtain ⟨k, hrej, hacc⟩ | hall := first_accepted_or_all_rejected mx s.engine
  · rw [exec_u64b_of_accepted hclosed hmx hrej hacc] at h
    cases h
    exact ⟨k, hacc, rfl⟩
  · rw [exec_u64b_of_rejected hclosed hmx hall] at h
    cases h

theorem exec_u64b_completes_iff : (∃ t, exec (.u64b mx) s = .next t) ↔ ∃ j, ¬ Rejected mx s.engine j := by
  refine ⟨fun ⟨t, h⟩ => ?_, fun ⟨j, hj⟩ => ?_⟩
  · obtain ⟨k, hacc, _⟩ := exec_u64b_next hclosed hmx h
    exact ⟨k, hacc⟩
  · obtain ⟨k, hrej, hacc⟩ | hall := first_accepted_or_all_rejected mx s.engine
    · exact ⟨_, exec_u64b_of_accepted hclosed hmx hrej hacc⟩
    · exact absurd (hall j) hj

theorem exec_u64b_diverges_iff : exec (.u64b mx) s = .fault .u64bDiverges ↔ ¬ ∃ j, ¬ Rejected mx s.engine j := by
  refine ⟨fun h hacc => ?_, fun h => exec_u64b_of_rejected hclosed hmx (not_exists_not.mp h)⟩
  obtain ⟨t, ht⟩ := (exec_u64b_completes_iff hclosed hmx).mpr hacc
  rw [h] at ht
  cases ht

end closed

/-- A bound that is a power of two, 1 among them, takes one draw and keeps its top bits. -/
theorem exec_u64b_twoPow {p : Nat} (hp : p < 64) {s : State} (h : s.seeding = false) :
    exec (.u64b (BitVec.twoPow 64 p)) s =
      .next { s with engine := s.engine.advance, res0 := s.engine.output >>> (64 - p), code := .ok } := by
  have hne := twoPow_ne_zero hp
  have hthreshold := (threshold_eq_zero_iff_pow hne).mpr ⟨p, twoPow_toNat hp⟩
  rw [exec_u64b_of_first_accepted h hne (not_rejected_of_threshold_zero hthreshold s.engine 0),
    hi64_mul128_twoPow _ hp]

theorem exec_u64b_one {s : State} (h : s.seeding = false) :
    exec (.u64b 1) s = .next { s with engine := s.engine.advance, res0 := 0, code := .ok } := by
  have hout : s.engine.output >>> 64 = 0 := BitVec.ushiftRight_eq_zero (Nat.le_refl 64)
  rw [← hout]
  exact exec_u64b_twoPow (p := 0) (by decide) h

/-- The rule's example, bound 1000. -/
theorem exec_u64b_1000 {s : State} (h : s.seeding = false) (hout : s.engine.output = 0x123456789ABCDEF0) :
    exec (.u64b 1000) s = .next { s with engine := s.engine.advance, res0 := 0x47, code := .ok } := by
  have hacc : ¬ Rejected 1000 s.engine 0 := by
    rw [Rejected, Engine.steps_zero, hout]
    decide
  have hvalue : hi64 (mul128 0x123456789ABCDEF0 1000) = 0x47 := by decide
  rw [exec_u64b_of_first_accepted h (by decide) hacc, hout, hvalue]

/-- Settles O23, by U64B's next state at the first draw that is not rejected. -/
theorem boundedDrawReturnsTheFirstAcceptedProduct : Obligations.BoundedDrawReturnsTheFirstAcceptedProduct := by
  refine ⟨encodedAlone_u64b, fun _ s hopen => outsideSeeding_open_eq hopen _, fun s hclosed => execU64b_zero hclosed,
    fun mx s hclosed hmx hfast => ?_, fun mx s k hclosed hmx hrej hacc => ?_, fun mx s t hclosed hmx h => ?_,
    fun s hclosed => exec_u64b_one hclosed, fun p s _ hp hclosed => exec_u64b_twoPow hp hclosed, by decide,
    fun s hclosed hout => exec_u64b_1000 hclosed hout⟩
  · exact exec_u64b_of_first_accepted hclosed hmx (not_rejected_of_fast_path hmx hfast)
  · rw [← Engine.steps_eq_iterate]
    exact exec_u64b_of_accepted hclosed hmx hrej (not_rejected_iff.mpr hacc)
  · obtain ⟨k, _, hres0⟩ := exec_u64b_next hclosed hmx h
    rw [hres0]
    exact hi64_mul128_lt _ hmx

/-! ### 42_sampling.md R177, 70_reset_and_hazards.md R270: when U64B completes -/

/-- From the all-zero state a bound with threshold 0 gives 0 and leaves the state. -/
theorem exec_u64b_of_zero_engine {mx : Word} {s : State} (hclosed : s.seeding = false) (hmx : mx ≠ 0)
    (hzero : s.engine = Engine.zero) (hthreshold : threshold mx = 0) :
    exec (.u64b mx) s = .next { s with res0 := 0, code := .ok } := by
  have hadvance : s.engine.advance = s.engine := Engine.steps_eq_self_of_zero hzero 1
  have hvalue : hi64 (mul128 s.engine.output mx) = 0 := by
    rw [hzero, Engine.output_zero, mul128_zero_left]
    rfl
  rw [exec_u64b_of_first_accepted hclosed hmx (not_rejected_of_threshold_zero hthreshold _ 0), hadvance, hvalue]

/-- Settles O25: U64B completes iff some draw is not rejected; the all-zero state rejects every draw unless the
threshold is 0, and a draw of 1 has the bound itself as its low half. -/
theorem boundedDrawCompletesExactlyWhenADrawPasses : Obligations.BoundedDrawCompletesExactlyWhenADrawPasses := by
  refine ⟨fun mx s hclosed hmx => ?_, fun mx s hclosed hmx hzero => ⟨fun hpow => ?_, fun hpow => ?_⟩,
    fun mx s j hclosed hmx hout => ?_⟩
  · rw [some_draw_passes_iff hmx]
    exact ⟨exec_u64b_completes_iff hclosed hmx, exec_u64b_diverges_iff hclosed hmx⟩
  · exact exec_u64b_of_zero_engine hclosed hmx hzero ((threshold_eq_zero_iff_pow hmx).mpr hpow)
  · have hzero : s.engine = Engine.zero := hzero
    have hthreshold : threshold mx ≠ 0 := mt (threshold_eq_zero_iff_pow hmx).mp hpow
    exact exec_u64b_of_rejected hclosed hmx (hzero ▸ rejected_zero hthreshold)
  · exact (exec_u64b_completes_iff hclosed hmx).mpr ⟨j, not_rejected_of_output_one hmx hout⟩

end Sys2Proof.Machine
end

section
/-! PROOFS. 42_sampling.md: F52 and F53, as binary64 words and as values (R180 to R182, R184 to R186, R188). -/

namespace Sys2Proof.Machine

open Sys2Proof Sys2Proof.Claims

/-! ### 42_sampling.md R188: the value of a normal word -/

/-- A word of sign 0, exponent `ex` and fraction `fr`. -/
theorem binary64Value_of_toNat {w : Word} {ex fr c : Nat} (hw : w.toNat = ex * 2 ^ 52 + fr) (hfr : fr < 2 ^ 52)
    (hex : 0 < ex) (hc : ex + c = 1075) :
    binary64Value w = ((2 ^ 52 + fr : ℕ) : ℚ) / 2 ^ c := by
  have hsign : w.getLsbD 63 = false := by
    rw [BitVec.getLsbD]
    exact Nat.testBit_lt_two_pow (by omega)
  have hexponent : (w.extractLsb' 52 11).toNat = ex := by
    rw [BitVec.extractLsb'_toNat, Nat.shiftRight_eq_div_pow]
    omega
  have hfraction : (w.extractLsb' 0 52).toNat = fr := by
    rw [BitVec.extractLsb'_toNat, Nat.shiftRight_zero]
    omega
  have hscale : (2 : ℚ) ^ 1075 = 2 ^ c * 2 ^ ex := by rw [← pow_add, Nat.add_comm, hc]
  simp only [binary64Value, hsign, hexponent, hfraction, if_neg hex.ne', if_neg Bool.false_ne_true, hscale, one_mul]
  exact mul_div_mul_right _ _ (by positivity)

/-- Exponent and fraction put together do not overlap. -/
theorem shiftLeft_or_toNat {ex : Nat} (hex : ex < 2 ^ 11) {fr : Word} (hfr : fr.toNat < 2 ^ 52) :
    (BitVec.ofNat 64 ex <<< 52 ||| fr).toNat = ex * 2 ^ 52 + fr.toNat := by
  have hshift : (BitVec.ofNat 64 ex <<< 52).toNat = 2 ^ 52 * ex := by
    rw [BitVec.toNat_shiftLeft, BitVec.toNat_ofNat, Nat.shiftLeft_eq]
    omega
  rw [BitVec.toNat_or, hshift, ← Nat.two_pow_add_eq_or_of_lt hfr, Nat.mul_comm]

/-! ### 42_sampling.md R181, R185: the word of m·2^-53 -/

/-- Shifted left until its leading one is bit 52, a number below 2^53 loses nothing. -/
theorem normalized_bounds {m : Nat} (h0 : m ≠ 0) (hm : m < 2 ^ 53) :
    2 ^ 52 ≤ m * 2 ^ (53 - bitLength m) ∧ m * 2 ^ (53 - bitLength m) < 2 ^ 53 := by
  have hpos := bitLength_pos h0
  have hle : bitLength m ≤ 53 := bitLength_le_iff.mpr hm
  have hlow : 2 ^ (bitLength m - 1) ≤ m := two_pow_le_of_bitLength (by omega)
  have hlow' : 2 ^ 52 = 2 ^ (bitLength m - 1) * 2 ^ (53 - bitLength m) := by
    rw [← Nat.pow_add]
    congr 1
    omega
  have hhigh : 2 ^ 53 = 2 ^ bitLength m * 2 ^ (53 - bitLength m) := by
    rw [← Nat.pow_add, Nat.add_sub_cancel' hle]
  constructor
  · rw [hlow']
    exact Nat.mul_le_mul_right _ hlow
  · rw [hhigh]
    exact Nat.mul_lt_mul_of_pos_right (lt_two_pow_bitLength m) (by positivity)

theorem scaledBits_toNat {m : Nat} (h0 : m ≠ 0) (hm : m < 2 ^ 53) :
    (scaledBits m).toNat = (bitLength m + 969) * 2 ^ 52 + (m * 2 ^ (53 - bitLength m) - 2 ^ 52) := by
  obtain ⟨hlow, hhigh⟩ := normalized_bounds h0 hm
  have hle : bitLength m ≤ 53 := bitLength_le_iff.mpr hm
  have hmask : (0x000FFFFFFFFFFFFF : Word).toNat = 2 ^ 52 - 1 := rfl
  have hfraction : (BitVec.ofNat 64 (m <<< (53 - bitLength m)) &&& 0x000FFFFFFFFFFFFF).toNat =
      m * 2 ^ (53 - bitLength m) - 2 ^ 52 := by
    rw [BitVec.toNat_and, hmask, Nat.and_two_pow_sub_one_eq_mod, BitVec.toNat_ofNat, Nat.shiftLeft_eq]
    omega
  rw [scaledBits, shiftLeft_or_toNat (by omega) (by omega), hfraction]

/-- The word is exact. -/
theorem binary64Value_scaledBits {m : Nat} (h0 : m ≠ 0) (hm : m < 2 ^ 53) :
    binary64Value (scaledBits m) = (m : ℚ) / 2 ^ 53 := by
  obtain ⟨hlow, hhigh⟩ := normalized_bounds h0 hm
  have hle : bitLength m ≤ 53 := bitLength_le_iff.mpr hm
  have hexponent : 53 + (53 - bitLength m) + (bitLength m + 969) = 1075 := by omega
  rw [binary64Value_of_toNat (c := 53 + (53 - bitLength m)) (scaledBits_toNat h0 hm) (by omega) (by omega) (by omega),
    Nat.add_sub_cancel' hlow, pow_add, Nat.cast_mul, Nat.cast_pow, Nat.cast_ofNat]
  exact mul_div_mul_right _ _ (by positivity)

/-- The word is below that of 1.0. -/
theorem scaledBits_lt_one {m : Nat} (h0 : m ≠ 0) (hm : m < 2 ^ 53) : scaledBits m < 0x3FF0000000000000 := by
  obtain ⟨_, hhigh⟩ := normalized_bounds h0 hm
  have hle : bitLength m ≤ 53 := bitLength_le_iff.mpr hm
  have hone : (0x3FF0000000000000 : Word).toNat = 1023 * 2 ^ 52 := rfl
  rw [BitVec.lt_def, scaledBits_toNat h0 hm, hone]
  omega

/-! ### 42_sampling.md R180: F52 -/

theorem ushiftRight_12_toNat_lt (x : Word) : (x >>> 12).toNat < 2 ^ 52 := by
  have := x.isLt
  rw [BitVec.toNat_ushiftRight, Nat.shiftRight_eq_div_pow]
  omega

theorem binary64Value_f52bits (x : Word) :
    binary64Value (f52bits x) = ((2 * (x >>> 12).toNat + 1 : ℕ) : ℚ) / 2 ^ 53 := by
  have := ushiftRight_12_toNat_lt x
  exact binary64Value_scaledBits (by omega) (by omega)

/-- R180's y, the pattern in [1, 2). -/
theorem binary64Value_one_or (x : Word) :
    binary64Value (0x3FF0000000000000 ||| (x >>> 12)) = ((2 ^ 52 + (x >>> 12).toNat : ℕ) : ℚ) / 2 ^ 52 := by
  have hlt := ushiftRight_12_toNat_lt x
  exact binary64Value_of_toNat (shiftLeft_or_toNat (ex := 1023) (by decide) hlt) hlt (by decide) rfl

/-- R180's c, the constant that F52 subtracts. -/
theorem binary64Value_f52_constant : binary64Value 0x3FEFFFFFFFFFFFFF = 1 - 1 / 2 ^ 53 := by
  have hw : (0x3FEFFFFFFFFFFFFF : Word).toNat = 1022 * 2 ^ 52 + (2 ^ 52 - 1) := rfl
  rw [binary64Value_of_toNat (c := 53) hw (by decide) (by decide) rfl]
  norm_num

theorem binary64Value_f52bits_eq_sub (x : Word) :
    binary64Value (f52bits x) =
      binary64Value (0x3FF0000000000000 ||| (x >>> 12)) - binary64Value 0x3FEFFFFFFFFFFFFF := by
  rw [binary64Value_f52bits, binary64Value_one_or, binary64Value_f52_constant]
  push_cast
  ring

theorem f52bits_eq_of_ushiftRight_eq {x y : Word} (h : x >>> 12 = y >>> 12) : f52bits x = f52bits y := by
  rw [f52bits, f52bits, h]

theorem encodedAlone_f52 : EncodedAlone 0x06 (fun _ => .f52) :=
  encodedAlone_of_decodePlain (by decide) (by decide) (by decide) (by decide) fun _ => rfl

/-- Settles O29, by F52's next state and the values of its result and of the two patterns. -/
theorem f52EncodesTheSubtraction : Obligations.F52EncodesTheSubtraction :=
  ⟨encodedAlone_f52, fun _ => execF52_eq, binary64Value_f52bits_eq_sub, fun _ hopen => sample_of_open hopen f52bits,
    by decide, by decide, fun _ _ => f52bits_eq_of_ushiftRight_eq, by decide⟩

/-! ### 42_sampling.md R182: the range of F52 -/

theorem binary64Value_f52bits_bounds (x : Word) :
    1 / 2 ^ 53 ≤ binary64Value (f52bits x) ∧ binary64Value (f52bits x) ≤ 1 - 1 / 2 ^ 53 := by
  have hlow : 1 ≤ 2 * (x >>> 12).toNat + 1 := by omega
  have hhigh : 2 * (x >>> 12).toNat + 1 + 1 ≤ 2 ^ 53 := by
    have := ushiftRight_12_toNat_lt x
    omega
  rw [binary64Value_f52bits, one_sub_div (by positivity)]
  constructor <;> gcongr
  · exact_mod_cast hlow
  · exact le_sub_iff_add_le.mpr (by exact_mod_cast hhigh)

theorem f52bits_eq_iff {x y : Word} : f52bits y = f52bits x ↔ y >>> 12 = x >>> 12 := by
  refine ⟨fun h => BitVec.eq_of_toNat_eq ?_, f52bits_eq_of_ushiftRight_eq⟩
  have hvalue := congrArg binary64Value h
  rw [binary64Value_f52bits, binary64Value_f52bits, div_left_inj' (by positivity), Nat.cast_inj] at hvalue
  omega

theorem ushiftRight_12_eq_iff {x y : Word} : y >>> 12 = x >>> 12 ↔ y.toNat / 2 ^ 12 = x.toNat / 2 ^ 12 := by
  rw [← BitVec.toNat_inj, BitVec.toNat_ushiftRight, BitVec.toNat_ushiftRight, Nat.shiftRight_eq_div_pow,
    Nat.shiftRight_eq_div_pow]

/-- The draws that share their upper 52 bits with `x`, numbered by their low 12 bits. -/
def lowBitsEquiv (x : Word) : { y : Word // y >>> 12 = x >>> 12 } ≃ Fin (2 ^ 12) where
  toFun y := ⟨y.val.toNat % 2 ^ 12, Nat.mod_lt _ (by decide)⟩
  invFun i := ⟨BitVec.ofNat 64 (x.toNat / 2 ^ 12 * 2 ^ 12 + i), by
    rw [ushiftRight_12_eq_iff, BitVec.toNat_ofNat]
    omega⟩
  left_inv y := by
    have hy := ushiftRight_12_eq_iff.mp y.property
    apply Subtype.ext
    apply BitVec.eq_of_toNat_eq
    dsimp only
    rw [BitVec.toNat_ofNat]
    omega
  right_inv i := by
    apply Fin.ext
    dsimp only
    rw [BitVec.toNat_ofNat]
    omega

theorem card_f52bits_fibre (x : Word) : Nat.card { y : Word // f52bits y = f52bits x } = 2 ^ 12 := by
  simp only [f52bits_eq_iff]
  exact Nat.card_eq_of_equiv_fin (lowBitsEquiv x)

/-- Settles O30, by the exact value of a result, which also tells the draws of one result apart. -/
theorem f52IsExactAndInsideTheOpenInterval : Obligations.F52IsExactAndInsideTheOpenInterval := by
  refine ⟨fun x => ?_, binary64Value_f52bits_bounds, ?_, ?_, card_f52bits_fibre⟩
  · rw [binary64Value_f52bits]
    push_cast
    rfl
  · have hk : ((0 : Word) >>> 12).toNat = 0 := rfl
    rw [binary64Value_f52bits, hk]
    norm_num
  · have hk : ((0xFFFFFFFFFFFFFFFF : Word) >>> 12).toNat = 2 ^ 52 - 1 := rfl
    rw [binary64Value_f52bits, hk]
    norm_num

/-! ### 42_sampling.md R184: F53 -/

theorem ushiftRight_11_toNat_lt (x : Word) : (x >>> 11).toNat < 2 ^ 53 := by
  have := x.isLt
  rw [BitVec.toNat_ushiftRight, Nat.shiftRight_eq_div_pow]
  omega

theorem f53bits_of_eq_zero {x : Word} (h : (x >>> 11).toNat = 0) : f53bits x = 0 := if_pos h

theorem f53bits_of_ne_zero {x : Word} (h : (x >>> 11).toNat ≠ 0) : f53bits x = scaledBits (x >>> 11).toNat := if_neg h

theorem binary64Value_zero : binary64Value 0 = 0 := by
  have hexponent : ((0 : Word).extractLsb' 52 11).toNat = 0 := rfl
  have hfraction : ((0 : Word).extractLsb' 0 52).toNat = 0 := rfl
  simp only [binary64Value, hexponent, hfraction]
  simp

theorem binary64Value_f53bits (x : Word) : binary64Value (f53bits x) = ((x >>> 11).toNat : ℚ) / 2 ^ 53 := by
  by_cases h : (x >>> 11).toNat = 0
  · rw [f53bits_of_eq_zero h, binary64Value_zero, h, Nat.cast_zero, zero_div]
  · rw [f53bits_of_ne_zero h, binary64Value_scaledBits h (ushiftRight_11_toNat_lt x)]

theorem f53bits_lt_one (x : Word) : f53bits x < 0x3FF0000000000000 := by
  by_cases h : (x >>> 11).toNat = 0
  · rw [f53bits_of_eq_zero h]
    decide
  · rw [f53bits_of_ne_zero h]
    exact scaledBits_lt_one h (ushiftRight_11_toNat_lt x)

theorem encodedAlone_f53 : EncodedAlone 0x07 (fun _ => .f53) :=
  encodedAlone_of_decodePlain (by decide) (by decide) (by decide) (by decide) fun _ => rfl

theorem f53bits_of_toNat_lt {x : Word} (h : x.toNat < 2 ^ 11) : f53bits x = 0 :=
  f53bits_of_eq_zero (by rw [BitVec.toNat_ushiftRight, Nat.shiftRight_eq_div_pow, Nat.div_eq_of_lt h])

theorem f53bits_ne_of_one_le (x : Word) {w : Word} (h : 0x3FF0000000000000 ≤ w) : f53bits x ≠ w :=
  fun heq => BitVec.not_le.mpr (f53bits_lt_one x) (heq ▸ h)

/-- Settles O32, by F53's next state and the exact value and the bound of its result. -/
theorem f53EncodesTheScaledInteger : Obligations.F53EncodesTheScaledInteger :=
  ⟨encodedAlone_f53, fun _ => execF53_eq, binary64Value_f53bits, fun _ hopen => sample_of_open hopen f53bits,
    fun _ => f53bits_of_toNat_lt, by decide, by decide,
    fun x => ⟨f53bits_ne_of_one_le x (by decide), f53bits_ne_of_one_le x (by decide)⟩, by decide⟩

/-! ### 42_sampling.md R186: F52 and F53 of one draw -/

theorem ushiftRight_11_toNat (x : Word) : (x >>> 11).toNat = 2 * (x >>> 12).toNat + (x.getLsbD 11).toNat := by
  rw [BitVec.getLsbD, Nat.toNat_testBit, BitVec.toNat_ushiftRight, BitVec.toNat_ushiftRight,
    Nat.shiftRight_eq_div_pow, Nat.shiftRight_eq_div_pow]
  omega

theorem f52bits_eq_f53bits {x : Word} (h : x.getLsbD 11 = true) : f52bits x = f53bits x := by
  have hk : (x >>> 11).toNat = 2 * (x >>> 12).toNat + 1 := by rw [ushiftRight_11_toNat, h, Bool.toNat_true]
  rw [f53bits_of_ne_zero (by omega), hk, f52bits]

theorem binary64Value_f52bits_of_bit_11_zero {x : Word} (h : x.getLsbD 11 = false) :
    binary64Value (f52bits x) = binary64Value (f53bits x) + 1 / 2 ^ 53 := by
  have hk : (x >>> 11).toNat = 2 * (x >>> 12).toNat := by rw [ushiftRight_11_toNat, h, Bool.toNat_false, Nat.add_zero]
  rw [binary64Value_f52bits, binary64Value_f53bits, hk]
  push_cast
  ring

/-- Settles O33: with bit 11 set both encode the same odd number; without it the values differ. -/
theorem f52AndF53AgreeExactlyOnBit11 : Obligations.F52AndF53AgreeExactlyOnBit11 := by
  refine fun x => ⟨⟨fun heq => ?_, f52bits_eq_f53bits⟩, binary64Value_f52bits_of_bit_11_zero⟩
  by_contra hbit
  have hvalue := binary64Value_f52bits_of_bit_11_zero (eq_false_of_ne_true hbit)
  rw [heq] at hvalue
  exact absurd hvalue (by norm_num)

end Sys2Proof.Machine
end

section
/-! PROOFS. 43_state_interface.md: STRD, STWR, QMIN and QMAX, with the words of an opcode that has an index (R210, R211,
R214, R215). -/

namespace Sys2Proof.Machine

open Sys2Proof Sys2Proof.Claims

/-! ### 30_encoding.md R82, R83, R85: opcodes whose operand field is IDX -/

/-- OPC and IDX put together do not overlap. -/
theorem zeroExtend_or_index_toNat (opc : BitVec 8) (k : Fin 4) :
    (opc.zeroExtend 32 ||| (BitVec.ofNat 32 k.val <<< 16)).toNat = k.val * 2 ^ 16 + opc.toNat := by
  have hopc : opc.toNat < 2 ^ 16 := by omega
  have hlow : (opc.zeroExtend 32).toNat = opc.toNat := BitVec.toNat_setWidth_of_le (by decide)
  have hindex : (BitVec.ofNat 32 k.val <<< 16).toNat = 2 ^ 16 * k.val := by
    rw [BitVec.toNat_shiftLeft, BitVec.toNat_ofNat, Nat.shiftLeft_eq]
    omega
  rw [BitVec.toNat_or, hlow, hindex, Nat.lor_comm, ← Nat.two_pow_add_eq_or_of_lt hopc, Nat.mul_comm]

theorem idxField_eq_iff_toNat (w : CmdWord) (k : Fin 4) : idxField w = k ↔ w.toNat / 2 ^ 16 % 2 ^ 2 = k.val := by
  have hidx : (idxField w).val = (w.extractLsb' 16 2).toNat := rfl
  rw [Fin.ext_iff, hidx, BitVec.extractLsb'_toNat, Nat.shiftRight_eq_div_pow]

/-- The word of an opcode and an index with no other bit is the one whose other fields are 0. -/
theorem eq_opcode_or_index_iff (w : CmdWord) (k : Fin 4) :
    w = (opcField w).zeroExtend 32 ||| (BitVec.ofNat 32 k.val <<< 16) ↔
      idxField w = k ∧ imm8Field w = 0 ∧ rsvField w = 0 := by
  have hopc : (opcField w).toNat = w.toNat % 2 ^ 8 := BitVec.extractLsb'_toNat 0 8 w
  rw [idxField_eq_iff_toNat, imm8Field_eq_zero_iff, rsvField_eq_zero_iff, ← BitVec.toNat_inj,
    zeroExtend_or_index_toNat, hopc]
  omega

/-- An opcode that names a command with an index takes IMM8 and RSV 0, and no other word of that opcode is a command. -/
theorem encodedWithIndex_of_decode {opc : BitVec 8} {i : Fin 4 → Word → Instr} (h02 : opc.toNat ≠ 0x02)
    (hdecode : ∀ c : Command, rsvField c.word = 0 → imm8Field c.word = 0 → (opcField c.word).toNat = opc.toNat →
      decode c = .instr (i (idxField c.word) c.arg)) : EncodedWithIndex opc i := by
  intro w arg hopc
  have hopc : opcField w = opc := hopc
  subst hopc
  refine ⟨fun k hw => ?_, fun hw => ?_⟩
  · obtain ⟨hidx, himm, hrsv⟩ := (eq_opcode_or_index_iff w k).mp hw
    rw [← hidx]
    exact hdecode ⟨w, arg⟩ hrsv himm rfl
  · by_cases hrsv : rsvField w = 0
    · refine decode_of_unused_imm8 (c := ⟨w, arg⟩) h02 fun himm => ?_
      exact hw (idxField w) ((eq_opcode_or_index_iff w _).mpr ⟨rfl, himm, hrsv⟩)
    · exact decode_of_rsv_ne_zero hrsv

/-! ### 43_state_interface.md R210: STRD -/

theorem encodedWithIndex_strd : EncodedWithIndex 0x20 (fun i _ => .strd i) :=
  encodedWithIndex_of_decode (by decide) fun _ => decode_strd

theorem Engine.get_eq_getElem (e : Engine) (i : Fin 4) : e.get i = [e.s0, e.s1, e.s2, e.s3][i.val]! := by
  fin_cases i <;> rfl

/-- Settles O36, by STRD's next state, in which no mode is read. -/
theorem strdExportsOneWord : Obligations.StrdExportsOneWord := by
  refine ⟨encodedWithIndex_strd, fun i s => ?_, fun s hengine => ?_⟩
  · rw [exec_strd, Engine.get_eq_getElem]
  · rw [exec_strd, hengine]
    rfl

/-! ### 43_state_interface.md R211: STWR -/

theorem encodedWithIndex_stwr : EncodedWithIndex 0x21 Instr.stwr :=
  encodedWithIndex_of_decode (by decide) fun _ => decode_stwr

theorem Engine.set_eq_ite (e : Engine) (i : Fin 4) (v : Word) :
    e.set i v = ⟨if i = 0 then v else e.s0, if i = 1 then v else e.s1, if i = 2 then v else e.s2,
      if i = 3 then v else e.s3⟩ := by
  fin_cases i <;> rfl

/-- Four writes leave nothing of the old state. -/
theorem Engine.set_all (e : Engine) (v0 v1 v2 v3 : Word) :
    (((e.set 0 v0).set 1 v1).set 2 v2).set 3 v3 = ⟨v0, v1, v2, v3⟩ := rfl

theorem exec_stwr (i : Fin 4) (v : Word) {s : State} (h : s.seeding = false) :
    exec (.stwr i v) s = .next { s with engine := s.engine.set i v, code := .ok } := execStwr_eq i v h

/-- Settles O37, by STWR's next state in either mode; of four writes of zeros nothing but zeros is left. -/
theorem stwrImportsOneWord : Obligations.StwrImportsOneWord := by
  refine ⟨encodedWithIndex_stwr, fun i v s hclosed => ?_, fun i v s hopen => outsideSeeding_open_eq hopen _,
    fun s hclosed => ⟨_, _, _, exec_stwr 0 0 hclosed, exec_stwr 1 0 hclosed, exec_stwr 2 0 hclosed, ?_⟩,
    fun s hclosed hengine => ?_⟩
  · rw [exec_stwr i v hclosed, Engine.set_eq_ite]
  · rw [← Engine.set_all s.engine 0 0 0 0]
    exact exec_stwr 3 0 hclosed
  · rw [exec_stwr 3 0xFF hclosed, hengine]
    rfl

/-! ### 43_state_interface.md R214, R215: QMIN and QMAX -/

theorem encodedAlone_qmin : EncodedAlone 0x28 (fun _ => .qmin) :=
  encodedAlone_of_decodePlain (by decide) (by decide) (by decide) (by decide) fun _ => rfl

theorem encodedAlone_qmax : EncodedAlone 0x29 (fun _ => .qmax) :=
  encodedAlone_of_decodePlain (by decide) (by decide) (by decide) (by decide) fun _ => rfl

/-- Settles O40, by QMIN's next state, in which no mode is read. -/
theorem qminReturnsZero : Obligations.QminReturnsZero := ⟨encodedAlone_qmin, execQmin_eq⟩

/-- Settles O41, by QMAX's next state, in which no mode is read. -/
theorem qmaxReturnsAllOnes : Obligations.QmaxReturnsAllOnes := ⟨encodedAlone_qmax, execQmax_eq⟩

end Sys2Proof.Machine
end

section
/-! PROOFS. 43_state_interface.md: commands, steps and runs do not tell twins apart (R151, R212 and 10_state.md R39), so
an exported and imported engine resumes the stream (R212). -/

namespace Sys2Proof.Claims.Twin

open Sys2Proof Sys2Proof.Machine

/-! ### 10_state.md R39: twins and the updates of the block state -/

variable {s t : State}

theorem engine_eq (h : Twin s t) : s.engine = t.engine := h.1

theorem acc_eq (h : Twin s t) : s.acc = t.acc := h.2.1

theorem seeding_eq (h : Twin s t) : s.seeding = t.seeding := h.2.2

theorem withEngine (h : Twin s t) {e f : Engine} (hef : e = f) : Twin (s.withEngine e) (t.withEngine f) :=
  ⟨hef, h.acc_eq, h.seeding_eq⟩

theorem withAcc (h : Twin s t) (a : Option Word) : Twin (s.withAcc a) (t.withAcc a) :=
  ⟨h.engine_eq, rfl, h.seeding_eq⟩

theorem withSeeding (h : Twin s t) (b : Bool) : Twin (s.withSeeding b) (t.withSeeding b) :=
  ⟨h.engine_eq, h.acc_eq, rfl⟩

end Sys2Proof.Claims.Twin

namespace Sys2Proof.Machine

open Sys2Proof Sys2Proof.Claims

/-! ### 41_generator_engine.md R151: what the shared operations answer from twins -/

section twins

variable {i : Instr} {s t : State}

theorem sameResults_done (h : Twin s t) (h0 : writesRes0 i = true → s.res0 = t.res0)
    (h1 : writesRes1 i = true → s.res1 = t.res1) : SameResults i (done s) (done t) :=
  ⟨h, rfl, fun _ => h0, fun _ => h1⟩

theorem sameResults_faulted (h : Twin s t) {k : StatusCode} (hk : k ≠ .ok) :
    SameResults i (faulted s k) (faulted t k) :=
  ⟨h, rfl, fun hok => absurd hok hk, fun hok => absurd hok hk⟩

/-- The mode check answers alike, so only the command in its mode is left to compare. -/
theorem sameResults_outsideSeeding (h : Twin s t) {r q : Result} (hrun : SameResults i r q) :
    SameResults i (outsideSeeding s r) (outsideSeeding t q) := by
  rw [outsideSeeding, outsideSeeding, ← h.seeding_eq]
  split
  · exact sameResults_faulted h nofun
  · exact hrun

theorem sameResults_insideSeeding (h : Twin s t) {r q : Result} (hrun : SameResults i r q) :
    SameResults i (insideSeeding s r) (insideSeeding t q) := by
  rw [insideSeeding, insideSeeding, ← h.seeding_eq]
  split
  · exact hrun
  · exact sameResults_faulted h nofun

/-- A command that writes RES0 alone, with one value for both. -/
theorem sameResults_done_withRes0 (h : Twin s t) {v w : Word} (hvw : v = w) (h1 : writesRes1 i = false) :
    SameResults i (done (s.withRes0 v)) (done (t.withRes0 w)) :=
  sameResults_done h (fun _ => hvw) fun hw => absurd (h1.symm.trans hw) Bool.false_ne_true

/-- A command that writes no result. -/
theorem sameResults_done_silent (h : Twin s t) (h0 : writesRes0 i = false) (h1 : writesRes1 i = false) :
    SameResults i (done s) (done t) :=
  sameResults_done h (fun hw => absurd (h0.symm.trans hw) Bool.false_ne_true)
    fun hw => absurd (h1.symm.trans hw) Bool.false_ne_true

/-- A sampling command draws from the common engine. -/
theorem sameResults_sample (h : Twin s t) (f : Word → Word) (h1 : writesRes1 i = false) :
    SameResults i (sample f s) (sample f t) :=
  sameResults_outsideSeeding h <| sameResults_done_withRes0
    (h.withEngine (congrArg Engine.advance h.engine_eq)) (congrArg (fun e => f e.output) h.engine_eq) h1

/-! ### 41_generator_engine.md R151: every command -/

theorem sameResults_execBits (h : Twin s t) (b : BitVec 8) : SameResults (.bits b) (execBits b s) (execBits b t) := by
  rw [execBits, execBits]
  split
  · exact sameResults_faulted h nofun
  · exact sameResults_sample h _ rfl

theorem sameResults_execU64b (h : Twin s t) (mx : Word) : SameResults (.u64b mx) (execU64b mx s) (execU64b mx t) := by
  refine sameResults_outsideSeeding h ?_
  rw [← h.engine_eq]
  split
  · exact sameResults_faulted h nofun
  · cases boundedDraw mx s.engine with
    | none => rfl
    | some p => exact sameResults_done_withRes0 (h.withEngine rfl) rfl rfl

theorem sameResults_execSeqpush (h : Twin s t) (x : Word) :
    SameResults (.seqpush x) (execSeqpush x s) (execSeqpush x t) := by
  refine sameResults_insideSeeding h ?_
  rw [← h.acc_eq, ← h.engine_eq]
  cases s.acc with
  | none => rfl
  | some a => exact sameResults_done_silent ((h.withEngine rfl).withAcc _) rfl rfl

/-- No command tells twins apart. -/
theorem exec_sameResults (i : Instr) (h : Twin s t) : SameResults i (exec i s) (exec i t) := by
  cases i with
  | next => exact sameResults_sample h id rfl
  | bits b => exact sameResults_execBits h b
  | u64b mx => exact sameResults_execU64b h mx
  | u32 => exact sameResults_sample h high32 rfl
  | u32p =>
    have hout := congrArg Engine.output h.engine_eq
    exact sameResults_outsideSeeding h <| sameResults_done
      (h.withEngine (congrArg Engine.advance h.engine_eq)) (fun _ => congrArg low32 hout) fun _ => congrArg high32 hout
  | f52 => exact sameResults_sample h f52bits rfl
  | f53 => exact sameResults_sample h f53bits rfl
  | discard n =>
    exact sameResults_outsideSeeding h <|
      sameResults_done_silent (h.withEngine (congrArg (Engine.steps n.toNat) h.engine_eq)) rfl rfl
  | seed x => exact sameResults_done_silent (((h.withEngine rfl).withAcc none).withSeeding false) rfl rfl
  | seqbegin => exact sameResults_done_silent (((h.withEngine rfl).withAcc _).withSeeding true) rfl rfl
  | seqpush x => exact sameResults_execSeqpush h x
  | seqend =>
    have hfinish := congrArg (finishSeeding Config.cfg) h.engine_eq
    exact sameResults_insideSeeding h <|
      sameResults_done_silent (((h.withEngine hfinish).withAcc none).withSeeding false) rfl rfl
  | mix acc => exact sameResults_done h (fun _ => rfl) fun _ => rfl
  | strd k => exact sameResults_done_withRes0 h (congrArg (Engine.get · k) h.engine_eq) rfl
  | stwr k v =>
    exact sameResults_outsideSeeding h <|
      sameResults_done_silent (h.withEngine (congrArg (Engine.set · k v) h.engine_eq)) rfl rfl
  | qmin => exact sameResults_done_withRes0 h rfl rfl
  | qmax => exact sameResults_done_withRes0 h rfl rfl

end twins

/-! ### 20_memory.md R66: a step, event by event -/

section events

variable {s : State} {rest : List PortEvent}

theorem step_of_idle (h : s.port = []) : step s = .next s := by
  rw [step, acceptEvent, acceptEventBy, h]

theorem step_of_issue {c : Command} (h : s.port = .issue c :: rest) :
    step s = runCommand c { s with port := rest } := by
  rw [step, acceptEvent, acceptEventBy, h]
  rfl

theorem step_of_reset (h : s.port = .reset :: rest) : step s = .next { State.reset with port := rest } := by
  rw [step, acceptEvent, acceptEventBy, h]

theorem step_of_abandoned {c : Command} (h : s.port = .abandoned c :: rest) :
    step s = .next { State.reset with port := rest } := by
  rw [step, acceptEvent, acceptEventBy, h]

theorem step_of_secondHost {c : Command} (h : s.port = .secondHost c :: rest) :
    step s = .refused .secondHost := by
  rw [step, acceptEvent, acceptEventBy, h]

theorem runCommand_of_instr {c : Command} {i : Instr} (h : decode c = .instr i) (s : State) :
    runCommand c s = exec i s := by
  rw [runCommand, runCommandBy, h]

theorem exec_keeps_port {i : Instr} {t : State} (h : exec i s = .next t) : t.port = s.port :=
  execWith_keeps_port ((execWith_cfg i s).trans h)

end events

/-! ### 43_state_interface.md R212: the same events take the same course -/

section course

variable {s t : State}

/-- Outcomes with the same results that leave the same events take one course. -/
theorem sameCourse_of_sameResults {i : Instr} {r q : Result} (h : SameResults i r q)
    (hport : ∀ x y, r = .next x → q = .next y → x.port = y.port) : SameCourse r q :=
  match r, q, h with
  | .next x, .next y, ⟨htwin, _⟩ => ⟨htwin, hport x y rfl rfl⟩
  | .fault _, .fault _, hfault => hfault
  | .refused _, .refused _, hrefused => hrefused

theorem exec_sameCourse (i : Instr) (h : Twin s t) (hport : s.port = t.port) :
    SameCourse (exec i s) (exec i t) :=
  sameCourse_of_sameResults (exec_sameResults i h) fun x y hx hy => by
    rw [exec_keeps_port hx, exec_keeps_port hy, hport]

/-- A command word that is no command faults in both. -/
theorem runCommand_sameCourse (c : Command) (h : Twin s t) (hport : s.port = t.port) :
    SameCourse (runCommand c s) (runCommand c t) := by
  cases hc : decode c with
  | fault f =>
    rw [runCommand_of_fault hc, runCommand_of_fault hc]
    exact ⟨h, hport⟩
  | instr i =>
    rw [runCommand_of_instr hc, runCommand_of_instr hc]
    exact exec_sameCourse i h hport

theorem step_sameCourse (h : Twin s t) (hport : s.port = t.port) : SameCourse (step s) (step t) := by
  match hs : s.port with
  | [] =>
    rw [step_of_idle hs, step_of_idle (hport ▸ hs)]
    exact ⟨h, hport⟩
  | .issue c :: rest =>
    rw [step_of_issue hs, step_of_issue (hport ▸ hs)]
    exact runCommand_sameCourse c h rfl
  | .reset :: rest =>
    rw [step_of_reset hs, step_of_reset (hport ▸ hs)]
    exact ⟨⟨rfl, rfl, rfl⟩, rfl⟩
  | .abandoned c :: rest =>
    rw [step_of_abandoned hs, step_of_abandoned (hport ▸ hs)]
    exact ⟨⟨rfl, rfl, rfl⟩, rfl⟩
  | .secondHost c :: rest =>
    rw [step_of_secondHost hs, step_of_secondHost (hport ▸ hs)]
    rfl

/-- The results of the command that is next are the same. -/
theorem step_sameResults {c : Command} {i : Instr} {rest : List PortEvent} (h : Twin s t) (hport : s.port = t.port)
    (hs : s.port = .issue c :: rest) (hc : decode c = .instr i) : SameResults i (step s) (step t) := by
  rw [step_of_issue hs, step_of_issue (hport ▸ hs), runCommand_of_instr hc, runCommand_of_instr hc]
  exact exec_sameResults i h

/-- What a run does with the outcome of its first step. -/
def andThen (r : Result) (f : State → Result) : Result :=
  match r with
  | .next s => f s
  | .fault k => .fault k
  | .refused k => .refused k

theorem run_succ (n : Nat) (s : State) : Host.Core.run core (n + 1) s = andThen (step s) (Host.Core.run core n) := by
  cases h : step s <;> simp [Host.Core.run, core, andThen, h]

theorem run_succ_of_next {u : State} (n : Nat) (h : step s = .next u) :
    Host.Core.run core (n + 1) s = Host.Core.run core n u := by
  rw [run_succ, h]
  rfl

theorem sameCourse_andThen {r q : Result} {f g : State → Result} (h : SameCourse r q)
    (hnext : ∀ x y, Twin x y → x.port = y.port → SameCourse (f x) (g y)) :
    SameCourse (andThen r f) (andThen q g) :=
  match r, q, h with
  | .next x, .next y, ⟨htwin, hport⟩ => hnext x y htwin hport
  | .fault _, .fault _, hfault => hfault
  | .refused _, .refused _, hrefused => hrefused

theorem run_sameCourse (n : Nat) (h : Twin s t) (hport : s.port = t.port) :
    SameCourse (Host.Core.run core n s) (Host.Core.run core n t) := by
  induction n generalizing s t with
  | zero => exact ⟨h, hport⟩
  | succ n ih =>
    rw [run_succ, run_succ]
    exact sameCourse_andThen (step_sameCourse h hport) fun x y => ih

end course

/-! ### 43_state_interface.md R212: the words of one engine written to another -/

/-- The command word of STWR with an index, written out (30_encoding.md R85). -/
def importWord (k : Fin 4) : CmdWord :=
  match k with
  | 0 => 0x00000021
  | 1 => 0x00010021
  | 2 => 0x00020021
  | 3 => 0x00030021

/-- The host imports one word: index and value. -/
def importEvent (p : Fin 4 × Word) : PortEvent := .issue ⟨importWord p.1, p.2⟩

theorem decode_importWord (k : Fin 4) (v : Word) : decode ⟨importWord k, v⟩ = .instr (.stwr k v) := by
  have hopc : ∀ k, (importWord k).extractLsb' 0 8 = 0x21 := by decide
  have hword : ∀ k, importWord k = (0x21 : BitVec 8).zeroExtend 32 ||| (BitVec.ofNat 32 k.val <<< 16) := by decide
  obtain ⟨hdecode, -⟩ := encodedWithIndex_stwr (importWord k) v (hopc k)
  exact hdecode k (hword k)

section transfer

variable {s t : State} {rest : List PortEvent}

theorem step_of_import {p : Fin 4 × Word} (hclosed : s.seeding = false) (hport : s.port = importEvent p :: rest) :
    step s = .next { s with engine := s.engine.set p.1 p.2, code := .ok, port := rest } := by
  rw [step_of_issue hport, runCommand_of_instr (decode_importWord p.1 p.2)]
  exact exec_stwr p.1 p.2 hclosed

/-- Imports in a row write their words, in order, and leave the mode and the accumulator. -/
theorem run_import (ps : List (Fin 4 × Word)) (hclosed : t.seeding = false)
    (hport : t.port = ps.map importEvent ++ rest) :
    ∃ u : State, Host.Core.run core ps.length t = .next u ∧ u.engine = ps.foldl (fun e p => e.set p.1 p.2) t.engine ∧
      u.acc = t.acc ∧ u.seeding = false ∧ u.port = rest := by
  induction ps generalizing t with
  | nil => exact ⟨t, rfl, rfl, rfl, hclosed, hport⟩
  | cons p ps ih =>
    rw [List.length_cons, run_succ_of_next _ (step_of_import hclosed hport)]
    exact ih hclosed rfl

theorem exec_strd_res0 {i : Fin 4} {r : State} (h : exec (.strd i) s = .next r) : r.res0 = s.engine.get i := by
  rw [exec_strd] at h
  cases h
  rfl

/-- Outside a sequence the accumulator is invalid (10_state.md R45). -/
theorem acc_eq_none_of_closed (hinv : s.Inv) (hclosed : s.seeding = false) : s.acc = none :=
  Option.isSome_eq_false_iff.trans Option.isNone_iff_eq_none |>.mp (hinv.trans hclosed)

end transfer

/-- Settles O38: the import leaves a twin of the exported state with the same events ahead, and twins take one course. -/
theorem importResumesTheExportedStream : Obligations.ImportResumesTheExportedStream := by
  intro s t r0 r1 r2 r3 rest hsinv htinv hsclosed htclosed hsport h0 h1 h2 h3 htport
  obtain ⟨u, hrun, hengine, hacc, huclosed, huport⟩ :=
    run_import [(0, r0.res0), (1, r1.res0), (2, r2.res0), (3, r3.res0)] htclosed htport
  have hwords : u.engine = s.engine := by
    rw [exec_strd_res0 h0, exec_strd_res0 h1, exec_strd_res0 h2, exec_strd_res0 h3] at hengine
    exact hengine
  have htwin : Twin s u := by
    refine ⟨hwords.symm, ?_, hsclosed.trans huclosed.symm⟩
    rw [acc_eq_none_of_closed hsinv hsclosed, hacc, acc_eq_none_of_closed htinv htclosed]
  refine ⟨u, hrun, hwords, fun n => ?_⟩
  have hcourse := run_sameCourse n htwin (hsport.trans huport.symm)
  refine ⟨hcourse, fun x y c later i hx hy hxport hc => ?_⟩
  rw [hx, hy] at hcourse
  obtain ⟨hxy, hports⟩ := hcourse
  exact step_sameResults hxy hports hxport hc

end Sys2Proof.Machine
end

section
/-! PROOFS. 60_exceptions.md: the checks of one command in their order, and its success once they pass (R234 to R238). -/

namespace Sys2Proof.Machine

open Sys2Proof Sys2Proof.Claims

/-! ### 60_exceptions.md R233: what decoding gives has passed the check of BITS -/

theorem decodePlain_instr_wf {opc : Nat} {arg : Word} {i : Instr} (h : decodePlain opc arg = .instr i) :
    i.wf = true := by
  unfold decodePlain at h
  split at h <;> cases h <;> rfl

/-- Of the four ways to decode a command, only BITS has an operand to check. -/
theorem decode_instr_wf {c : Command} {i : Instr} (h : decode c = .instr i) : i.wf = true := by
  dsimp only [decode] at h
  split_ifs at h with _ _ _ _ hb
  · cases h
    exact decide_eq_true (Nat.not_lt.mp hb)
  · cases h
    rfl
  · cases h
    rfl
  · exact decodePlain_instr_wf h

/-! ### 60_exceptions.md R235: SEQ_ORDER -/

section modes

variable {i : Instr} {s : State}

/-- R235 (a). -/
theorem faultsSeqOrder_of_needsOpen (hneeds : needsOpen i = true) (hclosed : s.seeding = false) :
    FaultsSeqOrder i s := by
  cases i with
  | seqpush | seqend => exact insideSeeding_closed_eq hclosed _
  | next | bits | u64b | u32 | u32p | f52 | f53 | discard | seed | seqbegin | mix | strd | stwr | qmin | qmax =>
    exact absurd hneeds Bool.false_ne_true

/-- R235 (b). BITS is the one whose check of its operand comes before the mode. -/
theorem faultsSeqOrder_of_needsClosed (hwf : i.wf = true) (hneeds : needsClosed i = true) (hopen : s.seeding = true) :
    FaultsSeqOrder i s := by
  cases i with
  | next | u32 | f52 | f53 => exact sample_of_open hopen _
  | bits b => exact (exec_bits_eq_sample (of_decide_eq_true hwf) s).trans (sample_of_open hopen _)
  | u64b | u32p | discard | stwr => exact outsideSeeding_open_eq hopen _
  | seed | seqbegin | seqpush | seqend | mix | strd | qmin | qmax => exact absurd hneeds Bool.false_ne_true

end modes

/-! ### 60_exceptions.md R238: success -/

/-- A command started in `s` with outcome `r` succeeds if it completes: CODE = OK, and STICKY as it was. -/
def SucceedsFrom (s : State) (r : Result) : Prop := ∀ t, r = .next t → t.code = .ok ∧ t.sticky = s.sticky

section success

variable {i : Instr} {s : State}

theorem succeedsFrom_done {u : State} (h : u.sticky = s.sticky) : SucceedsFrom s (done u) := by
  intro t ht
  obtain rfl := done_eq_next.mp ht
  exact ⟨u.complete_code, h⟩

theorem succeedsFrom_fault (f : Fault) : SucceedsFrom s (.fault f) := nofun

theorem succeedsFrom_outsideSeeding (hclosed : s.seeding = false) {r : Result} (h : SucceedsFrom s r) :
    SucceedsFrom s (outsideSeeding s r) := by
  rwa [outsideSeeding_of_closed hclosed]

theorem succeedsFrom_insideSeeding (hopen : s.seeding = true) {r : Result} (h : SucceedsFrom s r) :
    SucceedsFrom s (insideSeeding s r) := by
  rwa [insideSeeding_of_open hopen]

theorem succeedsFrom_sample (hclosed : s.seeding = false) (f : Word → Word) : SucceedsFrom s (sample f s) :=
  succeedsFrom_outsideSeeding hclosed (succeedsFrom_done rfl)

theorem succeedsFrom_execU64b (hclosed : s.seeding = false) {mx : Word} (hmx : mx ≠ 0) :
    SucceedsFrom s (execU64b mx s) := by
  refine succeedsFrom_outsideSeeding hclosed ?_
  rw [if_neg hmx]
  cases boundedDraw mx s.engine with
  | none => exact succeedsFrom_fault _
  | some p => exact succeedsFrom_done rfl

theorem succeedsFrom_execSeqpush (hopen : s.seeding = true) (x : Word) : SucceedsFrom s (execSeqpush x s) := by
  refine succeedsFrom_insideSeeding hopen ?_
  cases s.acc with
  | none => exact succeedsFrom_fault _
  | some a => exact succeedsFrom_done rfl

/-- A command that passes the checks of its operand, its mode and its bound succeeds if it completes. -/
theorem exec_succeedsFrom (hwf : i.wf = true) (hmode : modeAllows i s) (hbound : i ≠ .u64b 0) :
    SucceedsFrom s (exec i s) := by
  obtain ⟨hopen, hclosed⟩ := hmode
  cases i with
  | next | u32 | f52 | f53 => exact succeedsFrom_sample (hclosed rfl) _
  | bits b =>
    rw [exec_bits_eq_sample (of_decide_eq_true hwf)]
    exact succeedsFrom_sample (hclosed rfl) _
  | u64b mx => exact succeedsFrom_execU64b (hclosed rfl) fun hmx => hbound (congrArg Instr.u64b hmx)
  | u32p | discard | stwr => exact succeedsFrom_outsideSeeding (hclosed rfl) (succeedsFrom_done rfl)
  | seqpush x => exact succeedsFrom_execSeqpush (hopen rfl) x
  | seqend => exact succeedsFrom_insideSeeding (hopen rfl) (succeedsFrom_done rfl)
  | seed | seqbegin | mix | strd | qmin | qmax => exact succeedsFrom_done rfl

end success

/-- Settles O56, check by check in R234's order: a decode fault ends the command, a decoded one runs as exec, where the
mode check comes before U64B's, and past the checks it can only succeed or not complete. -/
theorem checksRunInTheirOrder : Obligations.ChecksRunInTheirOrder := by
  intro c s
  refine ⟨fun hc => runCommand_of_fault hc s, fun hc => runCommand_of_fault hc s, fun i hc hclosed hneeds => ?_,
    fun i hc hopen hneeds => ?_, fun hc hclosed => ?_, fun i hc hmode hbound => ?_⟩
  · rw [runCommand_of_instr hc]
    exact faultsSeqOrder_of_needsOpen hneeds hclosed
  · rw [runCommand_of_instr hc]
    exact faultsSeqOrder_of_needsClosed (decode_instr_wf hc) hneeds hopen
  · rw [runCommand_of_instr hc]
    exact execU64b_zero hclosed
  · exact ⟨runCommand_of_instr hc s, exec_succeedsFrom (decode_instr_wf hc) hmode hbound⟩

end Sys2Proof.Machine
end

section
/-! PROOFS. 70_reset_and_hazards.md: the all-zero state, which an import can make and no draw leaves (R268). -/

namespace Sys2Proof.Machine

open Sys2Proof Sys2Proof.Claims

/-! ### 70_reset_and_hazards.md R268: the all-zero state -/

theorem bitsFn_of_zero (b : Nat) : bitsFn 0 b = 0 := by
  obtain rfl | hpos := Nat.eq_zero_or_pos b
  · exact bitsFn_zero 0
  · exact (bitsFn_of_pos 0 hpos).trans BitVec.zero_ushiftRight

section zeroEngine

variable {s : State} (hclosed : s.seeding = false) (hzero : s.engine = Engine.zero)

include hclosed hzero

/-- In the all-zero state a sampling command takes its value from a draw of 0 and leaves the engine. -/
theorem sample_of_zero_engine (f : Word → Word) : sample f s = .next { s with res0 := f 0, code := .ok } := by
  have hadvance : s.engine.advance = s.engine := Engine.steps_eq_self_of_zero hzero 1
  rw [sample_of_closed hclosed, hadvance, hzero, Engine.output_zero]

theorem exec_bits_of_zero_engine {b : BitVec 8} (hb : b.toNat ≤ 64) :
    exec (.bits b) s = .next { s with res0 := 0, code := .ok } := by
  rw [exec_bits_eq_sample hb, sample_of_zero_engine hclosed hzero, bitsFn_of_zero]

theorem exec_u32p_of_zero_engine : exec .u32p s = .next { s with res0 := 0, res1 := 0, code := .ok } := by
  have hadvance : s.engine.advance = s.engine := Engine.steps_eq_self_of_zero hzero 1
  have hlow : low32 0 = 0 := by decide
  have hhigh : high32 0 = 0 := by decide
  rw [exec_u32p hclosed, hadvance, hzero, Engine.output_zero, hlow, hhigh]

theorem exec_f52_of_zero_engine : exec .f52 s = .next { s with res0 := 0x3CA0000000000000, code := .ok } := by
  have hvalue : f52bits 0 = 0x3CA0000000000000 := by decide
  rw [← hvalue]
  exact sample_of_zero_engine hclosed hzero f52bits

theorem exec_discard_of_zero_engine (n : Word) : exec (.discard n) s = .next { s with code := .ok } := by
  rw [exec_discard n hclosed, Engine.steps_eq_self_of_zero hzero]

end zeroEngine

/-- Settles O58: four imports of 0 make the all-zero engine, from which every draw is 0 and every step stays; of U64B
there, O25 says when it diverges. -/
theorem theAllZeroStateIsAbsorbing : Obligations.TheAllZeroStateIsAbsorbing := by
  refine ⟨fun s hclosed => ?_, fun s hclosed hzero => ?_⟩
  · exact ⟨_, _, _, _, exec_stwr 0 0 hclosed, exec_stwr 1 0 hclosed, exec_stwr 2 0 hclosed, exec_stwr 3 0 hclosed,
      Engine.set_all s.engine 0 0 0 0, rfl⟩
  · obtain ⟨-, hu64b, -⟩ := boundedDrawCompletesExactlyWhenADrawPasses
    exact ⟨sample_of_zero_engine hclosed hzero id, fun _ => exec_bits_of_zero_engine hclosed hzero,
      sample_of_zero_engine hclosed hzero high32, exec_u32p_of_zero_engine hclosed hzero,
      sample_of_zero_engine hclosed hzero f53bits, exec_f52_of_zero_engine hclosed hzero,
      exec_discard_of_zero_engine hclosed hzero, fun mx hmx => (hu64b mx s hclosed hmx hzero).2⟩

end Sys2Proof.Machine
end

section
/-! PROOFS. 30_encoding.md: encoding and decoding undo each other (R81, R86, R87, R89, R91). -/

namespace Sys2Proof.Machine

open Sys2Proof Sys2Proof.Claims

/-! ### 30_encoding.md R81: the fields of a word built from its fields -/

/-- OPC, IMM8 and IDX put together do not overlap. -/
theorem buildWord_toNat {opc : Nat} (h : opc < 2 ^ 8) (imm : BitVec 8) (idx : Fin 4) :
    (buildWord opc imm idx).toNat = idx.val * 2 ^ 16 + (imm.toNat * 2 ^ 8 + opc) := by
  have hopc : (BitVec.ofNat 32 opc).toNat = opc := by
    rw [BitVec.toNat_ofNat]
    exact Nat.mod_eq_of_lt (by omega)
  have himm : (imm.zeroExtend 32 <<< 8).toNat = 2 ^ 8 * imm.toNat := by
    have hwide : (imm.zeroExtend 32).toNat = imm.toNat := BitVec.toNat_setWidth_of_le (by decide)
    rw [BitVec.toNat_shiftLeft, hwide, Nat.shiftLeft_eq]
    omega
  have hidx : (BitVec.ofNat 32 idx.val <<< 16).toNat = 2 ^ 16 * idx.val := by
    rw [BitVec.toNat_shiftLeft, BitVec.toNat_ofNat, Nat.shiftLeft_eq]
    omega
  have hlow : 2 ^ 8 * imm.toNat + opc < 2 ^ 16 := by omega
  rw [buildWord, BitVec.toNat_or, BitVec.toNat_or, hopc, himm, hidx, Nat.lor_comm opc, ← Nat.two_pow_add_eq_or_of_lt h,
    Nat.lor_comm, ← Nat.two_pow_add_eq_or_of_lt hlow]
  ring

section fields

variable {opc : Nat} (h : opc < 2 ^ 8) (imm : BitVec 8) (idx : Fin 4)

include h

theorem opcField_buildWord : (opcField (buildWord opc imm idx)).toNat = opc := by
  rw [opcField, BitVec.extractLsb'_toNat, buildWord_toNat h, Nat.shiftRight_zero]
  omega

theorem imm8Field_buildWord : imm8Field (buildWord opc imm idx) = imm := by
  apply BitVec.eq_of_toNat_eq
  rw [imm8Field, BitVec.extractLsb'_toNat, buildWord_toNat h, Nat.shiftRight_eq_div_pow]
  omega

theorem idxField_buildWord : idxField (buildWord opc imm idx) = idx := by
  rw [idxField_eq_iff_toNat, buildWord_toNat h]
  omega

theorem rsvField_buildWord : rsvField (buildWord opc imm idx) = 0 := by
  rw [rsvField_eq_zero_iff, buildWord_toNat h]
  omega

end fields

/-- A word whose reserved bits are 0 is the one built from its three other fields. -/
theorem buildWord_fields {w : CmdWord} (h : rsvField w = 0) :
    buildWord (opcField w).toNat (imm8Field w) (idxField w) = w := by
  have hopc : (opcField w).toNat = w.toNat % 2 ^ 8 := BitVec.extractLsb'_toNat 0 8 w
  have himm : (imm8Field w).toNat = w.toNat / 2 ^ 8 % 2 ^ 8 := by
    rw [imm8Field, BitVec.extractLsb'_toNat, Nat.shiftRight_eq_div_pow]
  have hidx := (idxField_eq_iff_toNat w (idxField w)).mp rfl
  have hrsv := (rsvField_eq_zero_iff w).mp h
  apply BitVec.eq_of_toNat_eq
  rw [buildWord_toNat (opcField w).isLt]
  omega

/-! ### 30_encoding.md R87, R91: decoding what the assembler emits -/

/-- An opcode that uses neither IMM8 nor IDX, in the word with both 0. -/
theorem decode_buildWord_plain {opc : Nat} (hopc : opc < 2 ^ 8) (hassigned : opc ∈ assignedOpcodes) (h02 : opc ≠ 0x02)
    (h20 : opc ≠ 0x20) (h21 : opc ≠ 0x21) (arg : Word) :
    decode ⟨buildWord opc 0 0, arg⟩ = decodePlain opc arg := by
  have hfield := opcField_buildWord hopc 0 0
  have hplain := decode_plain (c := ⟨buildWord opc 0 0, arg⟩) (rsvField_buildWord hopc 0 0)
    (imm8Field_buildWord hopc 0 0) (idxField_buildWord hopc 0 0)
  simp only [hfield] at hplain
  exact hplain hassigned h02 h20 h21

theorem decode_encode {i : Instr} (h : i.wf = true) : decode (encode i) = .instr i := by
  cases i with
  | bits b =>
    have hrange : ¬ 64 < b.toNat := Nat.not_lt.mpr (of_decide_eq_true h)
    have hopc : 0x02 < 2 ^ 8 := by decide
    have hbits := decode_bits (c := encode (.bits b)) (rsvField_buildWord hopc b 0) (idxField_buildWord hopc b 0)
      (opcField_buildWord hopc b 0)
    have himm : imm8Field (encode (.bits b)).word = b := imm8Field_buildWord hopc b 0
    rw [hbits, himm, if_neg hrange]
  | strd k =>
    have hopc : 0x20 < 2 ^ 8 := by decide
    have hstrd := decode_strd (c := encode (.strd k)) (rsvField_buildWord hopc 0 k) (imm8Field_buildWord hopc 0 k)
      (opcField_buildWord hopc 0 k)
    have hidx : idxField (encode (.strd k)).word = k := idxField_buildWord hopc 0 k
    rw [hstrd, hidx]
  | stwr k v =>
    have hopc : 0x21 < 2 ^ 8 := by decide
    have hstwr := decode_stwr (c := encode (.stwr k v)) (rsvField_buildWord hopc 0 k) (imm8Field_buildWord hopc 0 k)
      (opcField_buildWord hopc 0 k)
    have hidx : idxField (encode (.stwr k v)).word = k := idxField_buildWord hopc 0 k
    rw [hstwr, hidx]
    rfl
  | next | u64b | u32 | u32p | f52 | f53 | discard | seed | seqbegin | seqpush | seqend | mix | qmin | qmax =>
    exact decode_buildWord_plain (by decide) (by decide) (by decide) (by decide) (by decide) _

/-- Settles O43: the fields of the word are the operands, and the opcode names the command. -/
theorem decodeInvertsEncode : Obligations.DecodeInvertsEncode := fun _ => decode_encode

/-! ### 30_encoding.md R86, R89: encoding what was decoded -/

theorem encode_of_decodePlain {opc : Nat} {arg : Word} {i : Instr} (h : decodePlain opc arg = .instr i) :
    encode i = ⟨buildWord opc 0 0, if i.usesArg then arg else 0⟩ := by
  unfold decodePlain at h
  split at h <;> cases h <;> rfl

/-- In each of the four ways to decode a command, the checks say which fields are 0, and the word is built from the
others. -/
theorem encode_of_decode {c : Command} {i : Instr} (h : decode c = .instr i) :
    encode i = ⟨c.word, if i.usesArg then c.arg else 0⟩ := by
  dsimp only [decode] at h
  split_ifs at h with hrsv _ hopc hidx _ hopc himm hopc himm hfields
  all_goals have hword := buildWord_fields (not_not.mp hrsv)
  · rw [hopc, not_not.mp hidx] at hword
    cases h
    exact congrArg (Command.mk · _) hword
  · rw [hopc, not_not.mp himm] at hword
    cases h
    exact congrArg (Command.mk · _) hword
  · rw [hopc, not_not.mp himm] at hword
    cases h
    exact congrArg (Command.mk · _) hword
  · obtain ⟨himm, hidx⟩ := not_or.mp hfields
    rw [not_not.mp himm, not_not.mp hidx] at hword
    rw [encode_of_decodePlain h, hword]

/-- Settles O44, by the four ways to decode a command. -/
theorem encodeInvertsDecode : Obligations.EncodeInvertsDecode := fun _ _ h =>
  ⟨decode_instr_wf h, encode_of_decode h⟩

end Sys2Proof.Machine
end

section
/-! PROOFS. The invariants of the block state: ACC is valid exactly while SEEDING = 1 (10_state.md R45), and the engine
outside an open sequence is not all-zero unless STWR makes it so (10_state.md R31, 41_generator_engine.md R150). -/

namespace Sys2Proof.Machine

open Sys2Proof Sys2Proof.Claims

section invariants

variable {s t : State}

/-! ### 10_state.md R45: ACC is valid exactly while SEEDING = 1 -/

theorem reset_inv (rest : List PortEvent) : State.Inv { State.reset with port := rest } := rfl

/-- A block of any configuration keeps R45: the commands that write ACC or SEEDING leave the two agreeing. -/
theorem execWith_keeps_inv {c : Cfg} {i : Instr} (hinv : s.Inv) (h : execWith c i s = .next t) : t.Inv := by
  obtain ⟨_, _, rfl⟩ | ⟨_, _, _, _, rfl⟩ | ⟨_, _, rfl⟩ | ⟨_, _, _, _, rfl⟩ | ⟨_, _, rfl⟩ | ⟨_, rfl⟩ |
    ⟨hopen, _, _, _, _, rfl⟩ | ⟨_, _, rfl⟩ := execWith_next_cases h
  · exact hinv
  · exact hinv
  · exact hinv
  · exact hinv
  · exact Option.isSome_none
  · exact Option.isSome_some
  · exact Option.isSome_some.trans hopen.symm
  · exact Option.isSome_none

theorem runCommand_keeps_inv {c : Command} (hinv : s.Inv) (h : runCommand c s = .next t) : t.Inv := by
  obtain ⟨f, _, hfault⟩ | ⟨i, _, hexec⟩ := runCommand_cases c s
  · rw [hfault] at h
    cases h
    exact hinv
  · rw [hexec, ← execWith_cfg] at h
    exact execWith_keeps_inv hinv h

/-- Settles O52: an idle step keeps the state, a command keeps R45, and the reset state meets it. -/
theorem everyStepKeepsTheInvariant : Obligations.EveryStepKeepsTheInvariant := by
  intro s t hinv h
  obtain ⟨_, rfl⟩ | ⟨c, rest, _, hrun⟩ | ⟨rest, _, rfl⟩ := step_cases h
  · exact hinv
  · exact runCommand_keeps_inv (s := { s with port := rest }) hinv hrun
  · exact reset_inv rest

/-! ### 10_state.md R31: the engine outside an open sequence is not all-zero -/

theorem nonDegenerate_of_engine_ne (h : s.engine ≠ Engine.zero) : s.NonDegenerate := fun _ => h

theorem nonDegenerate_of_open (h : s.seeding = true) : s.NonDegenerate := fun hclosed =>
  absurd (hclosed.symm.trans h) Bool.false_ne_true

theorem seedScalar_ne_zero {c : Cfg} (h : c.wf = true) (x : Word) : seedScalar c x ≠ Engine.zero := by
  rw [seedScalar_eq]
  exact burnIn_zeroCheck_ne_zero h _

theorem reset_nonDegenerate (rest : List PortEvent) : State.NonDegenerate { State.reset with port := rest } :=
  nonDegenerate_of_engine_ne (State.reset_engine ▸ seedScalar_ne_zero Config.cfg_wf 18914)

/-- Settles O51, by the reset state's registers and the seeding of its engine. -/
theorem resetSatisfiesTheInvariant : Obligations.ResetSatisfiesTheInvariant := ⟨reset_inv [], reset_nonDegenerate []⟩

/-- A draw steps the engine, which makes no state all-zero; the seeding commands end in ZeroCheck and BurnIn, or in an
open sequence. The projection of the last state is reduced before two engines are compared, as in O16. -/
theorem exec_keeps_nonDegenerate {i : Instr} (hstwr : ∀ k v, i ≠ .stwr k v) (hs : s.NonDegenerate)
    (h : exec i s = .next t) : t.NonDegenerate := by
  obtain ⟨_, _, rfl⟩ | ⟨hclosed, n, _, _, rfl⟩ | ⟨_, _, rfl⟩ | ⟨_, k, v, hi, _⟩ | ⟨x, _, rfl⟩ | ⟨_, rfl⟩ |
    ⟨hopen, _, _, _, _, rfl⟩ | ⟨_, _, rfl⟩ := exec_next_cases h
  · exact hs
  · exact nonDegenerate_of_engine_ne (mt (Engine.steps_eq_zero_iff n).mp (hs hclosed))
  · exact hs
  · exact absurd hi (hstwr k v)
  · exact nonDegenerate_of_engine_ne (seedScalar_ne_zero Config.cfg_wf x)
  · exact nonDegenerate_of_open rfl
  · exact nonDegenerate_of_open hopen
  · refine nonDegenerate_of_engine_ne ?_
    dsimp only
    exact finishSeeding_ne_zero Config.cfg_wf s.engine

/-- Settles O53: an idle step keeps the state, a word that is no command faults, every command but STWR keeps R31, and
the reset state is seeded. -/
theorem onlyStwrCanZeroTheEngine : Obligations.OnlyStwrCanZeroTheEngine := by
  intro s t hs hstwr h
  obtain ⟨_, rfl⟩ | ⟨c, rest, hport, hrun⟩ | ⟨rest, _, rfl⟩ := step_cases h
  · exact hs
  · obtain ⟨f, _, hfault⟩ | ⟨i, hc, hexec⟩ := runCommand_cases c { s with port := rest }
    · rw [hfault] at hrun
      cases hrun
      exact hs
    · rw [hexec] at hrun
      have hi : ∀ k v, i ≠ .stwr k v := fun k v hi => hstwr c rest k v hport (hi ▸ hc)
      exact exec_keeps_nonDegenerate (s := { s with port := rest }) hi hs hrun
  · exact reset_nonDegenerate rest

end invariants

end Sys2Proof.Machine
end

section
/-! PROOFS. What one command leaves unchanged (10_state.md R32, R36, R38, 60_exceptions.md R237, R238), what a step does
to STICKY and SEEDING (70_reset_and_hazards.md R260), and the STATUS word that shows them (10_state.md R36). -/

namespace Sys2Proof.Machine

open Sys2Proof Sys2Proof.Claims

/-! ### 10_state.md R32, R38, 60_exceptions.md R237: the frame of a command -/

/-- What a command leaves when it succeeds: STICKY, and each register that the rules' tables do not name for it. -/
def SuccessFrame (i : Instr) (s t : State) : Prop :=
  t.sticky = s.sticky ∧
  (writesEngine i = false → t.engine = s.engine) ∧
  (writesRes0 i = false → t.res0 = s.res0) ∧
  (writesRes1 i = false → t.res1 = s.res1) ∧
  (writesSeeding i = false → t.seeding = s.seeding) ∧
  (writesSeeding i = false → (∀ x, i ≠ .seqpush x) → t.acc = s.acc)

/-- An outcome of a command started in `s` that, as a next state, is a fault's whole effect or a success in its frame. -/
def FramedFrom (i : Instr) (s : State) (r : Result) : Prop :=
  ∀ t, r = .next t →
    (t.code ≠ .ok → t = { s with code := t.code, sticky := true }) ∧ (t.code = .ok → SuccessFrame i s t)

section frame

variable {i : Instr} {s u : State}

theorem framedFrom_done (h : SuccessFrame i s u) : FramedFrom i s (done u) := by
  intro t ht
  obtain rfl := done_eq_next.mp ht
  exact ⟨fun hfault => absurd u.complete_code hfault, fun _ => h⟩

theorem framedFrom_faulted {k : StatusCode} (hk : k ≠ .ok) : FramedFrom i s (faulted s k) := by
  intro t ht
  obtain rfl := faulted_eq_next.mp ht
  exact ⟨fun _ => rfl, fun hok => absurd hok hk⟩

theorem framedFrom_fault (f : Fault) : FramedFrom i s (.fault f) := nofun

theorem framedFrom_outsideSeeding {r : Result} (h : FramedFrom i s r) : FramedFrom i s (outsideSeeding s r) := by
  rw [outsideSeeding]
  split
  · exact framedFrom_faulted nofun
  · exact h

theorem framedFrom_insideSeeding {r : Result} (h : FramedFrom i s r) : FramedFrom i s (insideSeeding s r) := by
  rw [insideSeeding]
  split
  · exact h
  · exact framedFrom_faulted nofun

/-- A command that may write S and RES0, whatever it writes there. -/
theorem framedFrom_draw (hengine : writesEngine i = true) (hres0 : writesRes0 i = true) (e : Engine) (v : Word) :
    FramedFrom i s (done ((s.withEngine e).withRes0 v)) :=
  framedFrom_done (by simp [SuccessFrame, hengine, hres0])

theorem framedFrom_sample (hengine : writesEngine i = true) (hres0 : writesRes0 i = true) (f : Word → Word) :
    FramedFrom i s (sample f s) :=
  framedFrom_outsideSeeding (framedFrom_draw hengine hres0 _ _)

/-- A command that may write RES0 alone. -/
theorem framedFrom_withRes0 (hres0 : writesRes0 i = true) (v : Word) : FramedFrom i s (done (s.withRes0 v)) :=
  framedFrom_done (by simp [SuccessFrame, hres0])

/-- A command that may write S alone. -/
theorem framedFrom_withEngine (hengine : writesEngine i = true) (e : Engine) : FramedFrom i s (done (s.withEngine e)) :=
  framedFrom_done (by simp [SuccessFrame, hengine])

/-- A seeding command that may write S, ACC and SEEDING. -/
theorem framedFrom_seeding (hengine : writesEngine i = true) (hseeding : writesSeeding i = true) (e : Engine)
    (a : Option Word) (b : Bool) : FramedFrom i s (done (((s.withEngine e).withAcc a).withSeeding b)) :=
  framedFrom_done (by simp [SuccessFrame, hengine, hseeding])

theorem framedFrom_execBits (b : BitVec 8) (s : State) : FramedFrom (.bits b) s (execBits b s) := by
  rw [execBits]
  split
  · exact framedFrom_faulted nofun
  · exact framedFrom_sample rfl rfl _

theorem framedFrom_execU64b (mx : Word) (s : State) : FramedFrom (.u64b mx) s (execU64b mx s) := by
  refine framedFrom_outsideSeeding ?_
  split
  · exact framedFrom_faulted nofun
  · cases boundedDraw mx s.engine with
    | none => exact framedFrom_fault _
    | some p => exact framedFrom_draw rfl rfl p.2 p.1

theorem framedFrom_execSeqpush (x : Word) (s : State) : FramedFrom (.seqpush x) s (execSeqpush x s) := by
  refine framedFrom_insideSeeding ?_
  cases s.acc with
  | none => exact framedFrom_fault _
  | some a => exact framedFrom_done ⟨rfl, nofun, fun _ => rfl, fun _ => rfl, fun _ => rfl, fun _ h => absurd rfl (h x)⟩

theorem exec_framedFrom (i : Instr) (s : State) : FramedFrom i s (exec i s) := by
  cases i with
  | next | u32 | f52 | f53 => exact framedFrom_sample rfl rfl _
  | bits b => exact framedFrom_execBits b s
  | u64b mx => exact framedFrom_execU64b mx s
  | u32p =>
    exact framedFrom_outsideSeeding
      (framedFrom_done ⟨rfl, nofun, nofun, nofun, fun _ => rfl, fun _ _ => rfl⟩)
  | discard | stwr => exact framedFrom_outsideSeeding (framedFrom_withEngine rfl _)
  | seed | seqbegin => exact framedFrom_seeding rfl rfl _ _ _
  | seqpush x => exact framedFrom_execSeqpush x s
  | seqend => exact framedFrom_insideSeeding (framedFrom_seeding rfl rfl _ _ _)
  | mix => exact framedFrom_done ⟨rfl, fun _ => rfl, nofun, nofun, fun _ => rfl, fun _ _ => rfl⟩
  | strd | qmin | qmax => exact framedFrom_withRes0 rfl _

/-- Settles O54, command by command: each ends in a fault of the block or writes the registers of its table. -/
theorem commandFrame : Obligations.CommandFrame := fun i s t h =>
  ⟨exec_keeps_port h, exec_framedFrom i s t h⟩

end frame

/-! ### 60_exceptions.md R237, 70_reset_and_hazards.md R260: STICKY and SEEDING over a step -/

section sticky

variable {s t : State}

/-- STICKY after a command: set by a fault, and otherwise as it was. -/
theorem runCommand_sticky {c : Command} (h : runCommand c s = .next t) :
    (t.code ≠ .ok ∧ t.sticky = true) ∨ (t.code = .ok ∧ t.sticky = s.sticky) := by
  obtain ⟨f, _, hdecode⟩ | ⟨i, _, hexec⟩ := runCommand_cases c s
  · rw [hdecode] at h
    cases h
    exact .inl ⟨by cases f <;> nofun, rfl⟩
  · obtain ⟨hfault, hsuccess⟩ := exec_framedFrom i s t (hexec ▸ h)
    by_cases hok : t.code = .ok
    · obtain ⟨hsticky, -⟩ := hsuccess hok
      exact .inr ⟨hok, hsticky⟩
    · exact .inl ⟨hok, congrArg (·.sticky) (hfault hok)⟩

theorem exec_keeps_seeding {i : Instr} (hi : writesSeeding i = false) (h : exec i s = .next t) :
    t.seeding = s.seeding := by
  obtain ⟨hfault, hsuccess⟩ := exec_framedFrom i s t h
  by_cases hok : t.code = .ok
  · obtain ⟨-, -, -, -, hseeding, -⟩ := hsuccess hok
    exact hseeding hi
  · exact congrArg (·.seeding) (hfault hok)

theorem runCommand_changes_seeding {c : Command} (h : runCommand c s = .next t) (hne : s.seeding ≠ t.seeding) :
    ∃ i, decode c = .instr i ∧ writesSeeding i = true := by
  obtain ⟨f, _, hdecode⟩ | ⟨i, hc, hexec⟩ := runCommand_cases c s
  · rw [hdecode] at h
    cases h
    exact absurd rfl hne
  · refine ⟨i, hc, ?_⟩
    by_contra hi
    exact hne (exec_keeps_seeding (eq_false_of_ne_true hi) (hexec ▸ h)).symm

/-- Settles O55, event by event: an idle step changes nothing, a reset is named in each clause that it could break, and
a command sets STICKY or leaves it, and changes SEEDING only where its table says so. -/
theorem onlyResetClearsSticky : Obligations.OnlyResetClearsSticky := by
  intro s t h
  obtain ⟨hidle, rfl⟩ | ⟨c, rest, hport, hrun⟩ | ⟨rest, hreset, rfl⟩ := step_cases h
  · exact ⟨fun hset hclear => absurd (hset.symm.trans hclear) Bool.false_ne_true.symm,
      fun _ hissued => absurd hidle hissued, fun hne => absurd rfl hne⟩
  · refine ⟨fun hset hclear => ?_, fun hfault _ => ?_, fun hne => ?_⟩
    · obtain ⟨_, hsticky⟩ | ⟨_, hsticky⟩ := runCommand_sticky hrun
      · exact absurd (hclear.symm.trans hsticky) Bool.false_ne_true
      · exact absurd (hclear.symm.trans (hsticky.trans hset)) Bool.false_ne_true
    · obtain ⟨_, hsticky⟩ | ⟨hok, _⟩ := runCommand_sticky hrun
      · exact hsticky
      · exact absurd hok hfault
    · obtain ⟨i, hc, hi⟩ := runCommand_changes_seeding hrun hne
      exact .inr ⟨c, rest, i, hport, hc, hi⟩
  · exact ⟨fun _ _ => ⟨rest, hreset⟩, fun hfault _ => absurd State.reset_code hfault, fun _ => .inl ⟨rest, hreset⟩⟩

end sticky

/-! ### 10_state.md R36: the STATUS word -/

/-- The fields of STATUS by number: they do not overlap. -/
theorem BlockState.status_toNat (b : BlockState) :
    b.status.toNat = b.code.bits.toNat + 2 ^ 4 * b.seeding.toNat + 2 ^ 5 * b.sticky.toNat := by
  rw [BlockState.status]
  cases b.code <;> cases b.seeding <;> cases b.sticky <;> rfl

theorem getLsbD_eq_of_toNat {n : Nat} {w : BitVec n} {i : Nat} {b : Bool} (h : w.toNat / 2 ^ i % 2 = b.toNat) :
    w.getLsbD i = b := by
  apply Function.LeftInverse.injective Bool.ofNat_toNat
  rw [BitVec.getLsbD, Nat.toNat_testBit, h]

theorem StatusCode.bits_toNat_le (k : StatusCode) : k.bits.toNat ≤ 4 := by
  cases k <;> decide

/-- Settles O48: the number of the word is the sum of its fields at their places. -/
theorem statusWordLayout : Obligations.StatusWordLayout := by
  refine ⟨fun s => ?_, rfl, rfl, rfl, rfl, rfl⟩
  have hword := s.status_toNat
  have hcode := s.code.bits_toNat_le
  have hseeding := Bool.toNat_le s.seeding
  have hsticky := Bool.toNat_le s.sticky
  have hlow : s.status.extractLsb' 0 4 = s.code.bits := by
    apply BitVec.eq_of_toNat_eq
    rw [BitVec.extractLsb'_toNat, hword, Nat.shiftRight_zero]
    omega
  refine ⟨hlow, ?_, ?_, ?_, ?_⟩
  · apply getLsbD_eq_of_toNat
    omega
  · apply getLsbD_eq_of_toNat
    omega
  · apply BitVec.eq_of_toNat_eq
    rw [BitVec.extractLsb'_toNat, hword, Nat.shiftRight_eq_div_pow]
    have hzero : (0 : BitVec 26).toNat = 0 := rfl
    omega
  · rw [hlow]
    exact hcode

end Sys2Proof.Machine
end

section
/-! PROOFS. Which commands complete (70_reset_and_hazards.md R270, R271), the block as a function of configuration, state
and command (00_scope.md R21), and what one step takes from the port (20_memory.md R66, 70_reset_and_hazards.md R262). -/

namespace Sys2Proof.Machine

open Sys2Proof Sys2Proof.Claims

/-! ### 70_reset_and_hazards.md R271: completion -/

/-- A command of this outcome completes: it answers a next state. -/
def Completes (r : Result) : Prop := ∃ t, r = .next t

section completion

variable {c : Cfg} {i : Instr} {s : State}

theorem completes_next (t : State) : Completes (.next t) := ⟨t, rfl⟩

theorem completes_outsideSeeding {r : Result} (h : Completes r) : Completes (outsideSeeding s r) := by
  rw [outsideSeeding]
  split
  · exact completes_next _
  · exact h

theorem completes_insideSeeding {r : Result} (h : s.seeding = true → Completes r) : Completes (insideSeeding s r) := by
  rw [insideSeeding]
  split
  · exact h ‹_›
  · exact completes_next _

theorem completes_sample (f : Word → Word) : Completes (sample f s) := completes_outsideSeeding (completes_next _)

theorem completes_execBits (b : BitVec 8) : Completes (execBits b s) := by
  rw [execBits]
  split
  · exact completes_next _
  · exact completes_sample _

/-- In an open sequence ACC is valid, so that SEQPUSH has an accumulator to mix with. -/
theorem completes_seqpushWith (hinv : s.Inv) (x : Word) : Completes (seqpushWith c x s) := by
  refine completes_insideSeeding fun hopen => ?_
  obtain ⟨a, ha⟩ := Option.isSome_iff_exists.mp (hinv.trans hopen)
  rw [ha]
  exact completes_next _

theorem execWith_completes (hinv : s.Inv) (hu64b : ∀ mx, i ≠ .u64b mx) : Completes (execWith c i s) := by
  cases i with
  | next | u32 | f52 | f53 => exact completes_sample _
  | bits b => exact completes_execBits b
  | u64b mx => exact absurd rfl (hu64b mx)
  | u32p | discard | stwr => exact completes_outsideSeeding (completes_next _)
  | seqpush x => exact completes_seqpushWith hinv x
  | seqend => exact completes_insideSeeding fun _ => completes_next _
  | seed | seqbegin | mix | strd | qmin | qmax => exact completes_next _

/-- Settles O57: a mode check answers a next state either way, and a command that passes it succeeds if it completes. -/
theorem everyOtherCommandCompletes : Obligations.EveryOtherCommandCompletes := by
  intro i s hinv hwf hu64b
  obtain ⟨t, h⟩ := execWith_completes (c := Config.cfg) hinv hu64b
  rw [execWith_cfg] at h
  refine ⟨t, h, fun hmode => ?_⟩
  obtain ⟨hok, _⟩ := exec_succeedsFrom hwf hmode (hu64b 0) t h
  exact hok

/-- U64B does not complete in one case alone (42_sampling.md R177). -/
theorem execU64b_completes_or_diverges (mx : Word) (s : State) :
    Completes (execU64b mx s) ∨
      (execU64b mx s = .fault .u64bDiverges ∧ s.seeding = false ∧ mx ≠ 0 ∧ ∀ j, Rejected mx s.engine j) := by
  obtain hopen | hclosed := Bool.eq_false_or_eq_true s.seeding
  · exact .inl ⟨_, outsideSeeding_open_eq hopen _⟩
  by_cases hmx : mx = 0
  · exact .inl ⟨_, hmx ▸ execU64b_zero hclosed⟩
  obtain ⟨k, hrej, hacc⟩ | hall := first_accepted_or_all_rejected mx s.engine
  · exact .inl ⟨_, exec_u64b_of_accepted hclosed hmx hrej hacc⟩
  · exact .inr ⟨exec_u64b_of_rejected hclosed hmx hall, hclosed, hmx, hall⟩

/-- What a command of a block of any configuration can answer from a state of the invariant. -/
theorem execWith_completes_or_diverges (c : Cfg) (i : Instr) (hinv : s.Inv) :
    Completes (execWith c i s) ∨
      (execWith c i s = .fault .u64bDiverges ∧ s.seeding = false ∧
        ∃ mx, i = .u64b mx ∧ mx ≠ 0 ∧ ∀ j, Rejected mx s.engine j) := by
  by_cases hu64b : ∃ mx, i = .u64b mx
  · obtain ⟨mx, rfl⟩ := hu64b
    obtain hcompletes | ⟨hdiverges, hclosed, hmx, hall⟩ := execU64b_completes_or_diverges mx s
    · exact .inl hcompletes
    · exact .inr ⟨hdiverges, hclosed, mx, rfl, hmx, hall⟩
  · exact .inl (execWith_completes hinv (not_exists.mp hu64b))

end completion

/-! ### 00_scope.md R21: one command of a block -/

section block

variable {c : Cfg} {b : BlockState} {cmd : Command}

theorem blockExec_of_not_wf (h : c.wf = false) (b : BlockState) (cmd : Command) :
    blockExec c b cmd = .refused .illFormedConfig := by
  rw [blockExec, h]
  rfl

/-- The block's outcome is that of the machine's command, whatever the host has ahead. -/
theorem blockExec_of_wf (h : c.wf = true) (cmd : Command) (s : State) :
    blockExec c s.toBlockState cmd = .ofResult (runCommandBy (execWith c) cmd s) :=
  (if_pos h).trans (ofResult_runCommandBy_port c cmd s.toBlockState [] s.port)

theorem runCommandBy_of_fault {run : Instr → State → Result} {f : DecodeFault} (h : decode cmd = .fault f) (s : State) :
    runCommandBy run cmd s = faulted s (faultCode f) := by
  rw [runCommandBy, h]

theorem runCommandBy_of_instr {run : Instr → State → Result} {i : Instr} (h : decode cmd = .instr i) (s : State) :
    runCommandBy run cmd s = run i s := by
  rw [runCommandBy, h]

theorem runCommandBy_cfg (cmd : Command) (s : State) : runCommandBy (execWith Config.cfg) cmd s = runCommand cmd s := by
  rw [runCommand, funext fun i => funext (execWith_cfg i)]

theorem runCommandBy_keeps_port {s t : State} (h : runCommandBy (execWith c) cmd s = .next t) : t.port = s.port := by
  cases hdecode : decode cmd with
  | fault f =>
    rw [runCommandBy_of_fault hdecode] at h
    rw [faulted_eq_next.mp h, State.takeFault_port]
  | instr i =>
    rw [runCommandBy_of_instr hdecode] at h
    exact execWith_keeps_port h

/-- From a state of the invariant a command is done and keeps it, or it is a U64B with no acceptable draw ahead. -/
theorem blockExec_done_or_diverges (h : c.wf = true) (hinv : b.acc.isSome = b.seeding) (cmd : Command) :
    (∃ t, blockExec c b cmd = .done t ∧ t.acc.isSome = t.seeding) ∨
    (blockExec c b cmd = .diverges ∧ b.seeding = false ∧ ∃ mx, decode cmd = .instr (.u64b mx) ∧ mx ≠ 0 ∧
      ∀ j, Rejected mx b.engine j) := by
  rw [blockExec_of_wf h cmd { toBlockState := b, port := [] }]
  cases hdecode : decode cmd with
  | fault f =>
    rw [runCommandBy_of_fault hdecode]
    exact .inl ⟨_, rfl, hinv⟩
  | instr i =>
    rw [runCommandBy_of_instr hdecode]
    obtain ⟨t, ht⟩ | ⟨hdiverges, hclosed, mx, rfl, hmx, hall⟩ :=
      execWith_completes_or_diverges (s := { toBlockState := b, port := [] }) c i hinv
    · rw [ht]
      exact .inl ⟨_, rfl, execWith_keeps_inv (s := { toBlockState := b, port := [] }) hinv ht⟩
    · rw [hdiverges]
      exact .inr ⟨rfl, hclosed, mx, rfl, hmx, hall⟩

/-! ### 00_scope.md R21: the observation of a run -/

theorem start_of_wf (h : c.wf = true) (b : BlockState) : BlockOutcome.start c b = .done b := if_pos h

theorem observeRun_of_done {t : BlockState} (h : blockExec c b cmd = .done t) (cmds : List Command) :
    observeRun c (cmd :: cmds) b =
      ⟨(t.res0, t.res1, t.status) :: (observeRun c cmds t).outputs, (observeRun c cmds t).ending⟩ := by
  rw [observeRun, h]
  rfl

theorem observeRun_of_stop {stop : BlockOutcome} (h : blockExec c b cmd = stop) (hstop : ∀ t, stop ≠ .done t)
    (cmds : List Command) : observeRun c (cmd :: cmds) b = ⟨[], stop⟩ := by
  rw [observeRun, h]
  cases stop with
  | done t => exact absurd rfl (hstop t)
  | diverges | undefinedMixerCall | refused => rfl

theorem observeRun_of_not_wf (h : c.wf = false) (cmds : List Command) (b : BlockState) :
    observeRun c cmds b = ⟨[], .refused .illFormedConfig⟩ := by
  cases cmds with
  | nil =>
    rw [observeRun, BlockOutcome.start, h]
    rfl
  | cons cmd cmds => exact observeRun_of_stop (blockExec_of_not_wf h b cmd) nofun cmds

/-- A step that takes a command. -/
theorem stepWith_of_issue (h : c.wf = true) {s : State} {rest : List PortEvent} (hport : s.port = .issue cmd :: rest) :
    stepWith c s = runCommandBy (execWith c) cmd { s with port := rest } := by
  rw [stepWith, if_pos h, acceptEventBy, hport]

theorem issuing_of_issue {s : State} {rest : List PortEvent} (hport : s.port = .issue cmd :: rest) :
    s.issuing = true := by
  rw [State.issuing, hport]

/-- A step that takes a command gives that command's output and goes on, or ends the observation. -/
theorem observeEvents_of_issue (h : c.wf = true) {s : State} {rest : List PortEvent}
    (hport : s.port = .issue cmd :: rest) (n : Nat) :
    (∃ t, t.port = rest ∧ blockExec c s.toBlockState cmd = .done t.toBlockState ∧
      observeEvents c (n + 1) s =
        ⟨t.observe :: (observeEvents c n t).outputs, (observeEvents c n t).ending⟩) ∨
    ((∀ t, blockExec c s.toBlockState cmd ≠ .done t) ∧
      observeEvents c (n + 1) s = ⟨[], blockExec c s.toBlockState cmd⟩) := by
  have hstep := stepWith_of_issue h hport
  have hblock := blockExec_of_wf h cmd { s with port := rest }
  rw [observeEvents, issuing_of_issue hport, hblock, hstep]
  cases hrun : runCommandBy (execWith c) cmd { s with port := rest } with
  | next t => exact .inl ⟨t, runCommandBy_keeps_port hrun, rfl, rfl⟩
  | fault f => cases f <;> exact .inr ⟨nofun, rfl⟩
  | refused r => exact .inr ⟨nofun, rfl⟩

theorem observeEvents_issued (h : c.wf = true) (cmds : List Command) {s : State} (hport : s.port = cmds.map .issue) :
    observeEvents c cmds.length s = observeRun c cmds s.toBlockState := by
  induction cmds generalizing s with
  | nil => rfl
  | cons cmd cmds ih =>
    obtain ⟨t, htport, hdone, hobserve⟩ | ⟨hstop, hobserve⟩ := observeEvents_of_issue h hport cmds.length
    · rw [List.length_cons, hobserve, observeRun_of_done hdone, ih htport]
      rfl
    · rw [List.length_cons, hobserve, observeRun_of_stop rfl hstop]

end block

/-- Settles O60, by the block's outcome of one command and, for a run, by induction on its commands. -/
theorem blockIsAFunctionOfConfigurationStateAndCommand :
    Obligations.BlockIsAFunctionOfConfigurationStateAndCommand := by
  refine ⟨fun c b cmd cmds h => ⟨blockExec_of_not_wf h b cmd, observeRun_of_not_wf h cmds b⟩,
    fun c b cmd h hinv => blockExec_done_or_diverges h hinv cmd, fun c b h => ?_,
    fun c b t cmd cmds h => observeRun_of_done h cmds, fun c b cmd cmds h => observeRun_of_stop h nofun cmds,
    fun s cmd => ?_, fun c b cmds h => observeEvents_issued h cmds (List.append_nil _)⟩
  · rw [observeRun, start_of_wf h]
  · rw [blockExec_of_wf Config.cfg_wf, runCommandBy_cfg]

/-! ### 20_memory.md R66, 70_reset_and_hazards.md R262: the host's next event -/

/-- Settles O50, by the step of either event. -/
theorem resetAbandonsTheCommand : Obligations.ResetAbandonsTheCommand := fun _ _ _ =>
  ⟨step_of_reset, step_of_abandoned⟩

/-- A transaction numbered as entry 12 says, read back: no bit of ARG reaches CMD. -/
theorem commandOfNat_add {w arg : Nat} (hw : w < 2 ^ 32) (harg : arg < 2 ^ 64) :
    commandOfNat ((w + 2 ^ 32 * arg) % 2 ^ 96) = ⟨BitVec.ofNat 32 w, BitVec.ofNat 64 arg⟩ := by
  have hlt : w + 2 ^ 32 * arg < 2 ^ 96 := by omega
  have hword : BitVec.ofNat 32 (w + 2 ^ 32 * arg) = BitVec.ofNat 32 w := by
    apply BitVec.eq_of_toNat_eq
    rw [BitVec.toNat_ofNat, BitVec.toNat_ofNat]
    omega
  have harg' : (w + 2 ^ 32 * arg) / 2 ^ 32 = arg := by omega
  rw [Nat.mod_eq_of_lt hlt, commandOfNat, hword, harg']

/-- Settles O59, event by event, and for a placed word by reading its number back. -/
theorem stepRunsTheDecodedCommand : Obligations.StepRunsTheDecodedCommand := by
  refine ⟨fun s c rest i hport hc => ?_, fun s c rest hport => ⟨fun hc => ?_, fun hc => ?_⟩, fun s => step_of_idle,
    fun s c rest => step_of_secondHost, fun s w arg i hw harg hc => ⟨?_, ?_⟩⟩
  · rw [step_of_issue hport, runCommand_of_instr hc]
  · rw [step_of_issue hport]
    exact runCommand_of_fault hc _
  · rw [step_of_issue hport]
    exact runCommand_of_fault hc _
  · rw [decodeTableWord, commandOfNat_add hw harg, hc]
  · rw [State.withFetchWord, commandOfNat_add hw harg, step_of_issue rfl, runCommand_of_instr hc]
    rfl

/-! ### 10_state.md R39: what a result depends on -/

/-- Settles O39: no command tells twins apart. -/
theorem resultsDependOnlyOnEngineAccumulatorAndMode : Obligations.ResultsDependOnlyOnEngineAccumulatorAndMode :=
  fun i _ _ => exec_sameResults i

end Sys2Proof.Machine
end

section
/-! PROOFS. 41_generator_engine.md: SEQPUSH (R146), and a whole sequence issued by the host (R140, R149). -/

namespace Sys2Proof.Machine

open Sys2Proof Sys2Proof.Claims

/-! ### 41_generator_engine.md R146: SEQPUSH -/

theorem encodedAlone_seqpush : EncodedAlone 0x12 Instr.seqpush :=
  encodedAlone_of_decodePlain (by decide) (by decide) (by decide) (by decide) fun _ => rfl

/-- The rule's example: the scalar 0 mixed into the initial state under TC1. -/
theorem mixIn_tc1_seedInit_zero :
    (mixIn tc1 (seedInit tc1) 0).1 =
      ⟨0xE220A8397B1DCDAF, 0x6E789E6AA1B965F4, 0x06C45D188009454F, 0xF88BB8A8724C81EC⟩ := by
  decide

/-- Settles O15, by SEQPUSH's next state in either mode and, for the example, those of SEQBEGIN and SEQPUSH under TC1. -/
theorem seqpushMixesOneScalar : Obligations.SeqpushMixesOneScalar := by
  refine ⟨encodedAlone_seqpush, fun x a s hopen hacc => exec_seqpush x hopen hacc,
    fun x s hclosed => insideSeeding_closed_eq hclosed _,
    fun s => ⟨_, _, seqbeginWith_eq tc1 s, seqpushWith_eq tc1 0 rfl rfl, ?_⟩⟩
  dsimp only
  exact mixIn_tc1_seedInit_zero

/-! ### 41_generator_engine.md R140, R149: a sequence of any length -/

section sequence

variable {s : State} {rest : List PortEvent}

theorem decode_seqbegin_word : decode ⟨0x00000011, 0⟩ = .instr .seqbegin := (encodedAlone_seqbegin _ 0 rfl).1 rfl

theorem decode_seqpush_word (x : Word) : decode ⟨0x00000012, x⟩ = .instr (.seqpush x) :=
  (encodedAlone_seqpush _ x rfl).1 rfl

theorem decode_seqend_word : decode ⟨0x00000013, 0⟩ = .instr .seqend := (encodedAlone_seqend _ 0 rfl).1 rfl

theorem step_of_seqbegin (hport : s.port = .issue ⟨0x00000011, 0⟩ :: rest) :
    step s =
      .next { s with engine := (seedInit Config.cfg).1, acc := some (seedInit Config.cfg).2, seeding := true,
                     code := .ok, port := rest } := by
  rw [step_of_issue hport, runCommand_of_instr decode_seqbegin_word, exec_seqbegin]

theorem step_of_seqpush {x a : Word} (hopen : s.seeding = true) (hacc : s.acc = some a)
    (hport : s.port = .issue ⟨0x00000012, x⟩ :: rest) :
    step s =
      .next { s with engine := (mixIn Config.cfg (s.engine, a) x).1,
                     acc := some (mixIn Config.cfg (s.engine, a) x).2, code := .ok, port := rest } := by
  rw [step_of_issue hport, runCommand_of_instr (decode_seqpush_word x)]
  exact exec_seqpush (s := { s with port := rest }) x hopen hacc

theorem step_of_seqend (hopen : s.seeding = true) (hport : s.port = .issue ⟨0x00000013, 0⟩ :: rest) :
    step s =
      .next { s with engine := burnIn (zeroCheck Config.cfg s.engine), acc := none, seeding := false, code := .ok,
                     port := rest } := by
  rw [step_of_issue hport, runCommand_of_instr decode_seqend_word]
  exact exec_seqend (s := { s with port := rest }) hopen

/-- Pushes in a row mix their scalars in, in order, and leave the sequence open. -/
theorem run_seqpush (xs : List Word) {p : Engine × Word} (hcode : s.code = .ok) (hopen : s.seeding = true)
    (hengine : s.engine = p.1) (hacc : s.acc = some p.2)
    (hport : s.port = xs.map (fun x => .issue ⟨0x00000012, x⟩) ++ rest) (n : Nat) :
    Host.Core.run core (xs.length + n) s =
      Host.Core.run core n { s with engine := (xs.foldl (mixIn Config.cfg) p).1,
                                    acc := some (xs.foldl (mixIn Config.cfg) p).2, code := .ok, port := rest } := by
  induction xs generalizing s p with
  | nil =>
    have hport : s.port = rest := hport
    rw [List.length_nil, Nat.zero_add, List.foldl_nil, ← hengine, ← hacc, ← hcode, ← hport]
  | cons x xs ih =>
    have hstep := step_of_seqpush hopen hacc hport
    rw [hengine] at hstep
    rw [List.length_cons, Nat.add_right_comm, run_succ_of_next _ hstep, List.foldl_cons]
    exact ih rfl hopen rfl rfl rfl

/-- Settles O18: SEQBEGIN opens the sequence, the pushes mix their scalars in, and SEQEND closes it. -/
theorem sequenceSeedingRunsTheProtocol : Obligations.SequenceSeedingRunsTheProtocol := by
  intro xs rest s hport
  rw [run_succ_of_next (xs.length + 1) (step_of_seqbegin hport),
    run_seqpush xs (p := seedInit Config.cfg) rfl rfl rfl rfl rfl 1, run_succ_of_next 0 (step_of_seqend rfl rfl)]
  rfl

end sequence

end Sys2Proof.Machine
end

section
/-! PROOFS. 30_encoding.md: decoding follows the opcode table (R87), the words of 95_test_vectors.md section 7, and the
pairs that the assembler emits (R91, R92). -/

namespace Sys2Proof.Machine

open Sys2Proof Sys2Proof.Claims

/-! ### 30_encoding.md R87: the opcode table -/

theorem OpcodeRow.holds_iff {r : OpcodeRow} {w : CmdWord} : r.holds w = true ↔ w &&& r.mask = r.pattern :=
  decide_eq_true_iff

/-- Two rows that fix different values in the bits that both fix. -/
def Apart (r q : OpcodeRow) : Prop := r.pattern &&& q.mask ≠ q.pattern &&& r.mask

theorem not_holds_of_apart {r q : OpcodeRow} (h : Apart r q) (w : CmdWord) :
    ¬ (r.holds w = true ∧ q.holds w = true) := by
  rintro ⟨hr, hq⟩
  rw [OpcodeRow.holds_iff] at hr hq
  apply h
  rw [← hr, ← hq]
  ac_rfl

theorem opcodeTable_pairwise_apart : opcodeTable.Pairwise Apart := by
  unfold Apart
  decide

/-- The word of a well-formed instruction lies in the row of its mnemonic. -/
theorem encode_in_row (i : Instr) : Laws.EncodedInRow.Statement i := by
  cases i with
  | next => exact Laws.EncodedInRow.next
  | bits b => exact Laws.EncodedInRow.bits b
  | u64b mx => exact Laws.EncodedInRow.u64b mx
  | u32 => exact Laws.EncodedInRow.u32
  | u32p => exact Laws.EncodedInRow.u32p
  | f52 => exact Laws.EncodedInRow.f52
  | f53 => exact Laws.EncodedInRow.f53
  | discard n => exact Laws.EncodedInRow.discard n
  | seed x => exact Laws.EncodedInRow.seed x
  | seqbegin => exact Laws.EncodedInRow.seqbegin
  | seqpush x => exact Laws.EncodedInRow.seqpush x
  | seqend => exact Laws.EncodedInRow.seqend
  | mix acc => exact Laws.EncodedInRow.mix acc
  | strd k => exact Laws.EncodedInRow.strd k
  | stwr k v => exact Laws.EncodedInRow.stwr k v
  | qmin => exact Laws.EncodedInRow.qmin
  | qmax => exact Laws.EncodedInRow.qmax

/-- A decoded word is the encoded word of its instruction, so it lies in the row of the mnemonic. -/
theorem decode_in_row {c : Command} {i : Instr} (h : decode c = .instr i) :
    ∃ r ∈ opcodeTable, r.mnemonic = i.mnemonic ∧ r.holds c.word = true := by
  have hword : (encode i).word = c.word := by rw [encode_of_decode h]
  exact hword ▸ encode_in_row i (decode_instr_wf h)

/-- The bits that a row's mask fixes are those of its pattern. -/
theorem extractLsb'_of_mask {w mask pattern : CmdWord} {start len : Nat} (h : w &&& mask = pattern)
    (hmask : mask.extractLsb' start len = BitVec.allOnes len) :
    w.extractLsb' start len = pattern.extractLsb' start len := by
  rw [← h, BitVec.extractLsb'_and, hmask, BitVec.and_allOnes]

theorem opcField_zeroExtend (opc : BitVec 8) : opcField (opc.zeroExtend 32) = opc := by
  have hwide : (opc.zeroExtend 32).toNat = opc.toNat := BitVec.toNat_setWidth_of_le (by decide)
  apply BitVec.eq_of_toNat_eq
  rw [opcField, BitVec.extractLsb'_toNat, hwide, Nat.shiftRight_zero]
  exact Nat.mod_eq_of_lt opc.isLt

/-- The words of a row decode to instructions of its mnemonic, but for BITS above 64. -/
def RowDecodes (r : OpcodeRow) : Prop :=
  ∀ (w : CmdWord) (arg : Word), r.holds w = true →
    (∃ i, decode ⟨w, arg⟩ = .instr i ∧ i.mnemonic = r.mnemonic) ∨
    (r.mnemonic = "BITS" ∧ decode ⟨w, arg⟩ = .fault .bitsRange)

theorem rowDecodes_alone {opc : BitVec 8} {i : Word → Instr} {name : String} (h : EncodedAlone opc i)
    (hname : ∀ arg, (i arg).mnemonic = name) : RowDecodes ⟨name, opc.zeroExtend 32, 0xFFFFFFFF⟩ := by
  intro w arg hholds
  have hw : w &&& BitVec.allOnes 32 = opc.zeroExtend 32 := OpcodeRow.holds_iff.mp hholds
  rw [BitVec.and_allOnes] at hw
  obtain ⟨hdecode, -⟩ := h w arg (hw ▸ opcField_zeroExtend opc)
  exact .inl ⟨i arg, hdecode hw, hname arg⟩

/-- The index is the only part of the word that the mask leaves free. -/
theorem rowDecodes_withIndex {opc : BitVec 8} {i : Fin 4 → Word → Instr} {name : String} (h : EncodedWithIndex opc i)
    (hname : ∀ k arg, (i k arg).mnemonic = name) : RowDecodes ⟨name, opc.zeroExtend 32, 0xFFFCFFFF⟩ := by
  intro w arg hholds
  have hw : w &&& 0xFFFCFFFF = opc.zeroExtend 32 := OpcodeRow.holds_iff.mp hholds
  obtain ⟨himm, -, hrsv⟩ := (eq_zeroExtend_opcField_iff (opc.zeroExtend 32)).mp (by rw [opcField_zeroExtend])
  have hopc : opcField w = opc := (extractLsb'_of_mask hw (by decide)).trans (opcField_zeroExtend opc)
  have himm : imm8Field w = 0 := (extractLsb'_of_mask hw (by decide)).trans himm
  have hrsv : rsvField w = 0 := (extractLsb'_of_mask hw (by decide)).trans hrsv
  have hindex := (eq_opcode_or_index_iff w (idxField w)).mpr ⟨rfl, himm, hrsv⟩
  rw [hopc] at hindex
  obtain ⟨hdecode, -⟩ := h w arg hopc
  exact .inl ⟨i (idxField w) arg, hdecode _ hindex, hname _ arg⟩

theorem rowDecodes_bits : RowDecodes ⟨"BITS", 0x00000002, 0xFFFF00FF⟩ := by
  intro w arg hholds
  have hw : w &&& 0xFFFF00FF = 0x00000002 := OpcodeRow.holds_iff.mp hholds
  have hopc : w.extractLsb' 0 8 = 0x02 := extractLsb'_of_mask hw (by decide)
  have hunused : w.extractLsb' 16 16 = 0 := extractLsb'_of_mask hw (by decide)
  obtain ⟨-, hinstr, hrange⟩ := decode_bits_word w arg hopc
  obtain hb | hb := Nat.lt_or_ge 64 (w.extractLsb' 8 8).toNat
  · exact .inr ⟨rfl, hrange hunused hb⟩
  · exact .inl ⟨_, hinstr hunused hb, rfl⟩

theorem rowDecodes_of_mem : ∀ r ∈ opcodeTable, RowDecodes r := by
  simp only [opcodeTable, List.cons_append, List.nil_append, List.forall_mem_cons]
  exact ⟨rowDecodes_alone encodedAlone_next fun _ => rfl, rowDecodes_bits,
    rowDecodes_alone encodedAlone_u64b fun _ => rfl, rowDecodes_alone encodedAlone_u32 fun _ => rfl,
    rowDecodes_alone encodedAlone_u32p fun _ => rfl, rowDecodes_alone encodedAlone_f52 fun _ => rfl,
    rowDecodes_alone encodedAlone_f53 fun _ => rfl, rowDecodes_alone encodedAlone_discard fun _ => rfl,
    rowDecodes_alone encodedAlone_seed fun _ => rfl, rowDecodes_alone encodedAlone_seqbegin fun _ => rfl,
    rowDecodes_alone encodedAlone_seqpush fun _ => rfl, rowDecodes_alone encodedAlone_seqend fun _ => rfl,
    rowDecodes_alone encodedAlone_mix fun _ => rfl, rowDecodes_withIndex encodedWithIndex_strd fun _ _ => rfl,
    rowDecodes_withIndex encodedWithIndex_stwr fun _ _ => rfl, rowDecodes_alone encodedAlone_qmin fun _ => rfl,
    rowDecodes_alone encodedAlone_qmax fun _ => rfl, nofun⟩

/-- Settles O45: the rows fix different values in common bits, decoding is undone by encoding, and each row's words are
those of its opcode. -/
theorem decodeFollowsTheOpcodeTable : Obligations.DecodeFollowsTheOpcodeTable :=
  ⟨opcodeTable_pairwise_apart.imp not_holds_of_apart, fun w arg _ => decode_in_row (c := ⟨w, arg⟩),
    fun w arg r hr => rowDecodes_of_mem r hr w arg⟩

/-- Settles O46: each word is closed, and decoding computes. -/
theorem writtenOutWordsDecode : Obligations.WrittenOutWordsDecode := by
  unfold Obligations.WrittenOutWordsDecode
  decide

/-! ### 30_encoding.md R91: the pair of one command -/

theorem assemble_core (i : Instr) :
    (AsmLine.core i).assemble = if asmAccepts i then some [encode i] else none := by
  simp [AsmLine.assemble, AsmLine.expand]

theorem assemble_core_of_accepted {i : Instr} (h : asmAccepts i = true) :
    (AsmLine.core i).assemble = some [encode i] := (assemble_core i).trans (if_pos h)

theorem encode_bits (b : BitVec 8) : encode (.bits b) = ⟨0x00000002 ||| (b.zeroExtend 32 <<< 8), 0⟩ := by
  rw [encode, buildWord]
  exact congrArg (Command.mk · 0) BitVec.or_zero

theorem assemble_bits (b : BitVec 8) :
    (AsmLine.core (.bits b)).assemble =
      if b.toNat ≤ 64 then some [⟨0x00000002 ||| (b.zeroExtend 32 <<< 8), 0⟩] else none := by
  rw [assemble_core, encode_bits]
  simp only [asmAccepts, decide_eq_true_eq]

theorem assemble_u64b (mx : Word) :
    (AsmLine.core (.u64b mx)).assemble = if mx = 0 then none else some [⟨0x00000003, mx⟩] := by
  rw [assemble_core]
  simp only [asmAccepts, decide_eq_true_eq, ite_not]
  rfl

/-- A word with IMM8 = 0 is the opcode with the index. -/
theorem assemble_indexed (k : Fin 4) (v : Word) :
    (AsmLine.core (.strd k)).assemble = some [⟨0x00000020 ||| (BitVec.ofNat 32 k.val <<< 16), 0⟩] ∧
    (AsmLine.core (.stwr k v)).assemble = some [⟨0x00000021 ||| (BitVec.ofNat 32 k.val <<< 16), v⟩] :=
  ⟨assemble_core_of_accepted rfl, assemble_core_of_accepted rfl⟩

/-! ### 30_encoding.md R92: the pseudo-instructions -/

theorem assemble_seedseq (xs : List Word) :
    (AsmLine.seedseq xs).assemble =
      some (⟨0x00000011, 0⟩ :: xs.map (fun x => ⟨0x00000012, x⟩) ++ [⟨0x00000013, 0⟩]) := by
  have haccepted : (AsmLine.seedseq xs).expand.all asmAccepts = true := by
    simp [AsmLine.expand, asmAccepts]
  have hpairs : (AsmLine.seedseq xs).expand.map encode =
      ⟨0x00000011, 0⟩ :: xs.map (fun x => ⟨0x00000012, x⟩) ++ [⟨0x00000013, 0⟩] := by
    rw [AsmLine.expand, List.map_append, List.map_append, List.map_map]
    rfl
  exact (if_pos haccepted).trans (congrArg some hpairs)

/-! ### 30_encoding.md R91: operand lists -/

theorem asWord_toNat (v : Word) : asWord v.toNat = some v := by
  rw [asWord, if_pos v.isLt, BitVec.ofNat_toNat, BitVec.setWidth_eq]

theorem formIndexed_of_index (k : Fin 4) (v : Word) :
    formStrd [k.val] = some (.core (.strd k)) ∧ formStwr [k.val, v.toNat] = some (.core (.stwr k v)) := by
  refine ⟨dif_pos k.isLt, (dif_pos k.isLt).trans ?_⟩
  rw [asWord_toNat]
  rfl

theorem formIndexed_of_out_of_range {n : Nat} (h : 4 ≤ n) (v : Nat) : formStrd [n] = none ∧ formStwr [n, v] = none :=
  ⟨dif_neg (Nat.not_lt.mpr h), dif_neg (Nat.not_lt.mpr h)⟩

/-- Settles O47: a line of commands is accepted exactly where R91's two tests pass, and emits the encoded words. -/
theorem assemblerEmitsTheListedPairs : Obligations.AssemblerEmitsTheListedPairs :=
  ⟨assemble_bits, assemble_u64b, ⟨rfl, rfl, rfl, rfl, rfl, rfl, rfl, rfl, rfl⟩, fun _ => ⟨rfl, rfl, rfl, rfl⟩,
    assemble_indexed, ⟨rfl, rfl, rfl, rfl⟩, fun _ => rfl, assemble_seedseq, fun _ _ _ _ => rfl, fun _ _ => rfl,
    fun _ h => if_neg (Nat.not_le.mpr h), fun _ h => if_pos h, fun _ v h => formIndexed_of_out_of_range h v,
    formIndexed_of_index⟩

end Sys2Proof.Machine
end

section
/-! PROOFS. 42_sampling.md: the uniformity of U64B's accepted draws (R189). -/

namespace Sys2Proof.Machine

open Sys2Proof Sys2Proof.Claims

/-! ### 42_sampling.md R189: the accepted draws of one result -/

/-- A draw is accepted with result `r` exactly when its product with the bound lies in the last 2^64 - t numbers of the
r-th block of 2^64, t the threshold. -/
theorem accepted_with_result_iff {mx r : Word} (hmx : mx ≠ 0) (x : Word) :
    (¬ lo64 (mul128 x mx) < threshold mx ∧ hi64 (mul128 x mx) = r) ↔
      r.toNat * 2 ^ 64 + 2 ^ 64 % mx.toNat ≤ x.toNat * mx.toNat ∧ x.toNat * mx.toNat < (r.toNat + 1) * 2 ^ 64 := by
  have hthreshold : 2 ^ 64 % mx.toNat < 2 ^ 64 := by
    rw [← threshold_toNat_eq_mod hmx]
    exact (threshold mx).isLt
  rw [BitVec.lt_def, ← BitVec.toNat_inj, lo64_toNat, hi64_toNat, mul128_toNat, threshold_toNat_eq_mod hmx]
  generalize x.toNat * mx.toNat = p at *
  generalize 2 ^ 64 % mx.toNat = t at *
  omega

theorem ceilDiv_add_mul (a q : Nat) {m : Nat} (hm : 0 < m) : (a + q * m) ⌈/⌉ m = a ⌈/⌉ m + q := by
  have hsplit : a + q * m + m - 1 = a + m - 1 + q * m := by omega
  rw [Nat.ceilDiv_eq_add_pred_div, Nat.ceilDiv_eq_add_pred_div, hsplit, Nat.add_mul_div_right _ _ hm]

/-- The factors of `m` whose products lie in `q` times `m` consecutive numbers are `q` consecutive numbers. -/
theorem mul_mem_interval_iff {a m q n : Nat} (hm : 0 < m) :
    a ≤ n * m ∧ n * m < a + q * m ↔ a ⌈/⌉ m ≤ n ∧ n < a ⌈/⌉ m + q := by
  rw [← ceilDiv_add_mul a q hm, ceilDiv_le_iff_le_mul hm, ← not_le, ← not_le, ceilDiv_le_iff_le_mul hm, Nat.mul_comm n]

/-- The words of `q` consecutive numbers from `k`, numbered in order. -/
def intervalEquiv {k q : Nat} (h : k + q ≤ 2 ^ 64) : { x : Word // k ≤ x.toNat ∧ x.toNat < k + q } ≃ Fin q where
  toFun x := ⟨x.val.toNat - k, by have := x.property; omega⟩
  invFun i := ⟨BitVec.ofNat 64 (k + i), by
    rw [BitVec.toNat_ofNat]
    omega⟩
  left_inv x := by
    obtain ⟨hlow, _⟩ := x.property
    apply Subtype.ext
    apply BitVec.eq_of_toNat_eq
    dsimp only
    rw [BitVec.toNat_ofNat]
    omega
  right_inv i := by
    apply Fin.ext
    dsimp only
    rw [BitVec.toNat_ofNat]
    omega

/-- Settles O26: the accepted draws of a result are the factors of the bound in one interval of 2^64 - t numbers, which
is the quotient times the bound, so that there are as many of them as the quotient says. -/
theorem acceptedDrawsAreExactlyUniform : Obligations.AcceptedDrawsAreExactlyUniform := by
  intro mx r hmx hr
  have hpos := BitVec.toNat_pos_of_ne_zero hmx
  have hend : (r.toNat + 1) * 2 ^ 64 = r.toNat * 2 ^ 64 + 2 ^ 64 % mx.toNat + 2 ^ 64 / mx.toNat * mx.toNat := by
    rw [Nat.add_assoc, Nat.mod_add_div', Nat.succ_mul]
  have hwords : (r.toNat * 2 ^ 64 + 2 ^ 64 % mx.toNat) ⌈/⌉ mx.toNat + 2 ^ 64 / mx.toNat ≤ 2 ^ 64 := by
    rw [← ceilDiv_add_mul _ _ hpos, ← hend, ceilDiv_le_iff_le_mul hpos]
    exact Nat.mul_le_mul_right _ hr
  simp only [accepted_with_result_iff hmx, hend, mul_mem_interval_iff hpos]
  exact Nat.card_eq_of_equiv_fin (intervalEquiv hwords)

end Sys2Proof.Machine
end

section
/-! PROOFS. 00_scope.md R17: the numbers of the binary64 layout, of which each but 0 has one word; and with them the
constants of F52 (42_sampling.md R183) and the layout of its and F53's results (R187). -/

namespace Sys2Proof.Machine

open Sys2Proof Sys2Proof.Claims

/-! ### 00_scope.md R17: sign, significand and exponent -/

/-- The biased exponent, bits 62:52. -/
def exponentField (w : Word) : Nat := (w.extractLsb' 52 11).toNat

/-- The fraction, bits 51:0. -/
def fractionField (w : Word) : Nat := (w.extractLsb' 0 52).toNat

/-- The fraction with its leading one, which a zero exponent leaves out. -/
def significand (w : Word) : Nat := if exponentField w = 0 then fractionField w else 2 ^ 52 + fractionField w

/-- The exponent that scales the significand: a zero exponent scales as 1 does. -/
def scaleExponent (w : Word) : Nat := max 1 (exponentField w)

/-- The absolute value of a word in units of 2^-1075. -/
def magnitude (w : Word) : Nat := significand w * 2 ^ scaleExponent w

theorem fractionField_lt (w : Word) : fractionField w < 2 ^ 52 := (w.extractLsb' 0 52).isLt

theorem significand_lt (w : Word) : significand w < 2 ^ 53 := by
  have := fractionField_lt w
  rw [significand]
  split <;> omega

theorem one_le_scaleExponent (w : Word) : 1 ≤ scaleExponent w := Nat.le_max_left _ _

/-- Above the least exponent the leading one is there. -/
theorem le_significand_of_one_lt {w : Word} (h : 1 < scaleExponent w) : 2 ^ 52 ≤ significand w := by
  have hne : exponentField w ≠ 0 := by
    rw [scaleExponent] at h
    omega
  rw [significand, if_neg hne]
  exact Nat.le_add_right _ _

/-- The sign that bit 63 gives. -/
def signFactor (w : Word) : ℚ := if w.getLsbD 63 then -1 else 1

/-- The value as a sign and a magnitude, whatever the exponent. -/
theorem binary64Value_eq (w : Word) : binary64Value w = signFactor w * ((magnitude w : ℚ) / 2 ^ 1075) := by
  have hvalue : binary64Value w =
      if exponentField w = 0 then signFactor w * (fractionField w : ℚ) / 2 ^ 1074
      else signFactor w * ((2 ^ 52 + fractionField w : ℕ) : ℚ) * 2 ^ exponentField w / 2 ^ 1075 := rfl
  rw [hvalue, magnitude, significand, scaleExponent]
  split
  · rename_i hzero
    have hscale : (2 : ℚ) ^ 1075 = 2 ^ 1074 * 2 := pow_succ 2 1074
    rw [hzero, hscale, Nat.cast_mul, Nat.max_eq_left (by decide), Nat.pow_one, Nat.cast_ofNat,
      mul_div_mul_right _ _ two_ne_zero, mul_div_assoc]
  · rename_i hne
    rw [Nat.max_eq_right (Nat.pos_of_ne_zero hne), Nat.cast_mul, Nat.cast_pow, Nat.cast_ofNat, mul_div_assoc,
      mul_assoc, mul_div_assoc]

theorem abs_signFactor (w : Word) : |signFactor w| = 1 := by
  rw [signFactor]
  split <;> simp

theorem abs_binary64Value (w : Word) : |binary64Value w| = (magnitude w : ℚ) / 2 ^ 1075 := by
  rw [binary64Value_eq, abs_mul, abs_signFactor, one_mul, abs_of_nonneg (by positivity)]

theorem magnitude_eq_of_value_eq {v w : Word} (h : binary64Value v = binary64Value w) : magnitude v = magnitude w := by
  have habs := congrArg abs h
  rw [abs_binary64Value, abs_binary64Value, div_left_inj' (by positivity)] at habs
  exact_mod_cast habs

/-- A number other than 0 has one sign. -/
theorem sign_eq_of_value_eq {v w : Word} (h : binary64Value v = binary64Value w) (hne : binary64Value v ≠ 0) :
    v.getLsbD 63 = w.getLsbD 63 := by
  have hmagnitude := magnitude_eq_of_value_eq h
  have hfactor : signFactor v = signFactor w := by
    rw [binary64Value_eq] at hne
    rw [binary64Value_eq, binary64Value_eq, ← hmagnitude] at h
    exact mul_right_cancel₀ (right_ne_zero_of_mul hne) h
  revert hfactor
  rw [signFactor, signFactor]
  cases v.getLsbD 63 <;> cases w.getLsbD 63 <;> norm_num

/-! ### 00_scope.md R17: a magnitude other than 0 has one exponent and one fraction -/

/-- With a greater exponent the leading one is there, and it outweighs every significand of the smaller exponent. -/
theorem magnitude_lt_of_scaleExponent_lt {v w : Word} (h : scaleExponent v < scaleExponent w) :
    magnitude v < magnitude w := by
  have hlead := le_significand_of_one_lt (Nat.lt_of_le_of_lt (one_le_scaleExponent v) h)
  calc magnitude v < 2 ^ 53 * 2 ^ scaleExponent v := Nat.mul_lt_mul_of_pos_right (significand_lt v) (by positivity)
    _ = 2 ^ 52 * 2 ^ (scaleExponent v + 1) := by ring
    _ ≤ significand w * 2 ^ scaleExponent w := Nat.mul_le_mul hlead (Nat.pow_le_pow_right (by decide) h)

theorem fields_eq_of_magnitude_eq {v w : Word} (h : magnitude v = magnitude w) :
    exponentField v = exponentField w ∧ fractionField v = fractionField w := by
  have hscale : scaleExponent v = scaleExponent w := by
    obtain hlt | heq | hlt := Nat.lt_trichotomy (scaleExponent v) (scaleExponent w)
    · exact absurd h (magnitude_lt_of_scaleExponent_lt hlt).ne
    · exact heq
    · exact absurd h (magnitude_lt_of_scaleExponent_lt hlt).ne'
  have hsignificand : significand v = significand w := by
    rw [magnitude, magnitude, hscale] at h
    exact Nat.eq_of_mul_eq_mul_right (by positivity) h
  have hv := fractionField_lt v
  have hw := fractionField_lt w
  rw [scaleExponent, scaleExponent] at hscale
  rw [significand, significand] at hsignificand
  split at hsignificand <;> split at hsignificand <;> omega

theorem toNat_eq_fields (w : Word) :
    w.toNat = (w.getLsbD 63).toNat * 2 ^ 63 + exponentField w * 2 ^ 52 + fractionField w := by
  rw [exponentField, fractionField, BitVec.getLsbD, Nat.toNat_testBit, BitVec.extractLsb'_toNat,
    BitVec.extractLsb'_toNat, Nat.shiftRight_eq_div_pow, Nat.shiftRight_zero]
  omega

/-- Settles O35: equal values have equal magnitudes, whose fields are the same, and equal signs. -/
theorem binary64EncodingIsUnique : Obligations.Binary64EncodingIsUnique := by
  intro v w _ _ h hne
  obtain ⟨hexponent, hfraction⟩ := fields_eq_of_magnitude_eq (magnitude_eq_of_value_eq h)
  apply BitVec.eq_of_toNat_eq
  rw [toNat_eq_fields v, toNat_eq_fields w, sign_eq_of_value_eq h hne, hexponent, hfraction]

/-! ### 42_sampling.md R183: the constants of F52 -/

theorem dvd_of_div_two_pow_eq {m n c d : Nat} (h : (m : ℚ) / 2 ^ c = n / 2 ^ d) : n ∣ m * 2 ^ d := by
  rw [div_eq_div_iff (by positivity) (by positivity)] at h
  exact ⟨2 ^ c, by exact_mod_cast h⟩

/-- 1 - 2^-54 needs a significand of 54 ones, one more than a word has. -/
theorem binary64Value_ne_one_sub (w : Word) : binary64Value w ≠ 1 - 1 / 2 ^ 54 := by
  intro h
  have hvalue : (magnitude w : ℚ) / 2 ^ 1075 = (2 ^ 54 - 1 : ℕ) / 2 ^ 54 := by
    rw [← abs_binary64Value, h]
    norm_num
  have hdvd : 2 ^ 54 - 1 ∣ significand w * 2 ^ (scaleExponent w + 54) := by
    rw [Nat.pow_add, ← Nat.mul_assoc, ← magnitude]
    exact dvd_of_div_two_pow_eq hvalue
  have hodd : Nat.Coprime (2 ^ 54 - 1) (2 ^ (scaleExponent w + 54)) := Nat.Coprime.pow_right _ (by decide)
  have hzero : significand w = 0 := by
    refine Nat.eq_zero_of_dvd_of_lt (hodd.dvd_of_dvd_mul_right hdvd) ?_
    have := significand_lt w
    omega
  rw [magnitude, hzero] at hvalue
  norm_num at hvalue

/-- Settles O31: by the fields of the three constants, and for the last by the length of its significand. -/
theorem f52Constants : Obligations.F52Constants := by
  have hone : binary64Value 0x3FF0000000000000 = 1 := by
    rw [binary64Value_of_toNat (ex := 1023) (fr := 0) (c := 52) rfl (by decide) (by decide) rfl]
    norm_num
  have hnext : binary64Value 0x3FF0000000000001 = 1 + 1 / 2 ^ 52 := by
    rw [binary64Value_of_toNat (ex := 1023) (fr := 1) (c := 52) rfl (by decide) (by decide) rfl]
    norm_num
  refine ⟨binary64Value_f52_constant, hone, ?_, fun w _ => binary64Value_ne_one_sub w⟩
  rw [hnext, hone, add_sub_cancel_left]

/-! ### 42_sampling.md R187: no result is negative, NaN, infinite or subnormal -/

/-- The word of m·2^-53 has sign 0 and an exponent from 970 to 1022. -/
theorem scaledBits_normal {m : Nat} (h0 : m ≠ 0) (hm : m < 2 ^ 53) :
    (scaledBits m).getLsbD 63 = false ∧ 0 < ((scaledBits m).extractLsb' 52 11).toNat ∧
      ((scaledBits m).extractLsb' 52 11).toNat < 1023 := by
  obtain ⟨hlow, hhigh⟩ := normalized_bounds h0 hm
  have hword := scaledBits_toNat h0 hm
  have hle : bitLength m ≤ 53 := bitLength_le_iff.mpr hm
  refine ⟨?_, ?_⟩
  · rw [BitVec.getLsbD]
    exact Nat.testBit_lt_two_pow (by omega)
  · rw [BitVec.extractLsb'_toNat, Nat.shiftRight_eq_div_pow]
    omega

/-- Settles O34: each result is 0 or the word of m·2^-53 with m below 2^53. -/
theorem floatResultsAreNormalOrZero : Obligations.FloatResultsAreNormalOrZero := by
  intro x
  have hk := ushiftRight_12_toNat_lt x
  refine ⟨scaledBits_normal (by omega) (by omega), ?_⟩
  by_cases h : (x >>> 11).toNat = 0
  · exact .inl (f53bits_of_eq_zero h)
  · rw [f53bits_of_ne_zero h]
    exact .inr (scaledBits_normal h (ushiftRight_11_toNat_lt x))

end Sys2Proof.Machine
end
